-- ==== Sys2Proof/Word.lean ====
section
/-! DEFINITION. Words, bytes and bits of FSYNC: `spec/00_scope.md` R7 to R9, `spec/10_state.md` R15. -/

namespace Sys2Proof

/-- A register value: 32 bits (R15). -/
abbrev Word := BitVec 32

/-- A byte of a buffer or of a byte sequence (R7). -/
abbrev Byte := BitVec 8

/-- A 16-bit header field (R7, R45). -/
abbrev Half := BitVec 16

/-- A bit of a bit stream, `true` for 1 (R7). -/
abbrev Bit := Bool

/-- A host address: 28 bits (R41). -/
abbrev HostAddr := BitVec 28

end Sys2Proof
end

