-- ==== Sys2Proof/Syntax.lean ====
section
/-! DEFINITION. The commands of FSYNC: one constructor for each row of `spec/opcode_table.json` (R58). A command word has
no operands (R57), so the constructors take none. -/

namespace Sys2Proof

/-- The five legal commands (R2, R58). -/
inductive Instr where
  /-- `CLEAR`, R76. -/
  | clear
  /-- `ENCODE`, R83. -/
  | encode
  /-- `RECOVER`, R99. -/
  | recover
  /-- `PARSE.CMD`, R118. -/
  | parseCmd
  /-- `PARSE.TLM`, R119. -/
  | parseTlm
deriving DecidableEq, Repr

end Sys2Proof
end

