-- ==== Sys2Proof/Decode.lean ====
section
/-! DEFINITION. Decoding of the command word and its encoder: `spec/30_encoding.md` R57 to R59. -/

namespace Sys2Proof

/-- Why a command word is illegal, by the field that makes it so (R59). All three end in `ILLEGAL_CMD`; the order in which
they are tried shows nowhere (DESIGN CHOICE, log 16, safe). -/
inductive IllegalWord where
  /-- Some `RSV` bit is 1. -/
  | reservedBits
  /-- `OP` is 4 to 15. -/
  | badOpcode
  /-- `DIR = 1` with `OP` other than 3. -/
  | badDirection
deriving DecidableEq, Repr

/-- `OP`, bits 3:0 of a command word (R57). -/
def opField (w : Word) : BitVec 4 := w.extractLsb' 0 4

/-- `DIR`, bit 4 of a command word (R57). -/
def dirField (w : Word) : BitVec 1 := w.extractLsb' 4 1

/-- `RSV`, bits 31:5 of a command word (R57). -/
def rsvField (w : Word) : BitVec 27 := w.extractLsb' 5 27

/-- A row of the command table: a word `w` is the row's when `w` and the mask give the match (R59). -/
structure OpcodeRow where
  instr : Instr
  pattern : Word
  mask : Word
deriving DecidableEq, Repr

/-- The command table (R58, R59, `spec/opcode_table.json`): every bit of a word is compared. -/
def opcodeRows : List OpcodeRow :=
  [ ⟨.clear,    0x00000000#32, 0xFFFFFFFF#32⟩,
    ⟨.encode,   0x00000001#32, 0xFFFFFFFF#32⟩,
    ⟨.recover,  0x00000002#32, 0xFFFFFFFF#32⟩,
    ⟨.parseCmd, 0x00000003#32, 0xFFFFFFFF#32⟩,
    ⟨.parseTlm, 0x00000013#32, 0xFFFFFFFF#32⟩ ]

/-- A word matches a row. -/
def OpcodeRow.accepts (r : OpcodeRow) (w : Word) : Bool := w &&& r.mask == r.pattern

/-- The name of an illegal word's fault (R59). -/
def illegalReason (w : Word) : IllegalWord :=
  if rsvField w ≠ 0 then .reservedBits
  else if 4 ≤ (opField w).toNat then .badOpcode
  else .badDirection

/-- Decoding of a command word: total, one of the five commands or illegal (R59). -/
def decode (w : Word) : Except IllegalWord Instr :=
  match opcodeRows.find? (fun r => r.accepts w) with
  | some r => .ok r.instr
  | none => .error (illegalReason w)

/-- The word of the format `CMDW` with the given fields (R57). -/
def cmdw (op : BitVec 4) (dir : BitVec 1) (rsv : BitVec 27) : Word := rsv ++ dir ++ op

/-- The encoder: each command's `OP` and `DIR` fields of R58, `RSV` 0. -/
def encode : Instr → Word
  | .clear => cmdw 0 0 0
  | .encode => cmdw 1 0 0
  | .recover => cmdw 2 0 0
  | .parseCmd => cmdw 3 0 0
  | .parseTlm => cmdw 3 1 0

/-- The instruction the decoder reads from the `nbits` lowest bits of `w`, the bits above them 0. A command is one 32-bit
word with no byte layout (R57), so a value beyond 32 bits is no command word. -/
def decodeTableWord (nbits w : Nat) : Option Instr :=
  if w % 2 ^ nbits < 2 ^ 32 then
    match decode (BitVec.ofNat 32 (w % 2 ^ nbits)) with
    | .ok i => some i
    | .error _ => none
  else none

end Sys2Proof
end

