-- ==== Sys2Proof/Config.lean ====
section
/-! DEFINITION. The parameters of R6: the fixed ones as numbers, the OPEN ones as a record that State holds, and the
free values of the model, which are opaque constants with no body. -/

namespace Sys2Proof

/-- The OPEN parameters a block is built for (`spec/00_scope.md` R6, U16). They are configuration: no step changes them.
The constraints R6 puts on them stand in `Params.wf` (`Sys2Proof/WellFormed.lean`). -/
structure Params where
  /-- `IBUF_BYTES`, the size of the input buffer. -/
  ibufBytes : Nat
  /-- `OBUF_BYTES`, the size of the output buffer. -/
  obufBytes : Nat
  /-- `CMD_TEXT_OFFSET`, where the text of a command-direction packet starts. -/
  cmdTextOffset : Nat
  /-- `TLM_MARKER`, the byte string before the text of a telemetry-direction packet. -/
  tlmMarker : List Byte
deriving DecidableEq, Repr

/-- `PREAMBLE`: the bytes `AA AA` (R6, R61). -/
def Config.preamble : List Byte := [0xAA#8, 0xAA#8]

/-- `MAX_SHIFT`: shifts 0 to 8 are tried (R6). -/
def Config.maxShift : Nat := 8

/-- `HEADER_BYTES`: the length of the primary header (R6, R62). -/
def Config.headerBytes : Nat := 6

/-- `CMD_CODE_OFFSET`: where the command code stands (R6, R65). -/
def Config.cmdCodeOffset : Nat := 6

/-- `APID_MASK` (R6). -/
def Config.apidMask : Half := 0x07FF#16

/-- `SEQ_COUNT_MASK` (R6). -/
def Config.seqCountMask : Half := 0x3FFF#16

/-- DESIGN CHOICE (log 1), unsafe: the OPEN parameters of `State.reset`. R6 gives no value; these are the example values
of the spec's own vectors (`spec/95_test_vectors.md`, section 0). Of the statements only
`ResetHasTheInvariant` uses them, in its clause about `State.reset`, and says so. -/
def Config.vectorParams : Params :=
  { ibufBytes := 4096, obufBytes := 69632, cmdTextOffset := 8, tlmMarker := [0x54#8, 0x3E#8] }

/-- Free value (log 2), safe: what byte `offset` of `IBUF` holds after reset number `epoch` until it is written (R139). -/
opaque Config.resetIbufByte : (epoch : Nat) → (offset : Nat) → Byte

/-- Free value (log 2), safe: what byte `offset` of `OBUF` holds after reset number `epoch` until it is written (R139). -/
opaque Config.resetObufByte : (epoch : Nat) → (offset : Nat) → Byte

/-- Free value (log 3), safe: what the `n`-th busy read answers when it reads a result register (R142). -/
opaque Config.busyWord : (n : Nat) → Word

/-- Free value (log 3), safe: what the `n`-th busy read answers when it reads a byte of `OBUF` (R142). -/
opaque Config.busyByte : (n : Nat) → Byte

end Sys2Proof
end

