-- ==== Sys2Proof/Machine/State.lean ====
section
/-! DEFINITION. The state of FSYNC as plain data: `spec/10_state.md`, and what the agents around the block still have to do
(R13, R52, R136). The reset state (R137). -/

namespace Sys2Proof.Machine

/-! ## Why a step stops -/

/-- The faults. -/
inductive Fault where
  /-- A host access that R42 or R43 call a bus error. Raised by the host port (`hostAccess`). Never cleared (R132): the run
  ends and the state is the one before the access. Safe: some host bus might answer (D27). -/
  | busError
deriving DecidableEq, Repr

/-- The refusals. -/
inductive Refusal where
  /-- An instruction without a meaning yet; raised by `exec` alone. No arm raises it. Safe. -/
  | notModelled (mnemonic : String)
  /-- A configuration that breaks a constraint of R6 (U16). Raised by `step`. Safe. -/
  | badConfiguration
deriving DecidableEq, Repr

/-! ## Registers -/

/-- The outcome of the last completed command (R124). The reserved codes 6 to 15 are never produced (R124, U14), so they
have no name here. -/
inductive Code where
  | ok
  | preambleNotFound
  | syncHeaderTooShort
  | parseHeaderTooShort
  | illegalCmd
  | lenRange
deriving DecidableEq, Repr

/-- The fields of `STATUS` (R17). `busy` is also the engine's phase (R39). The reserved bits read 0 and have no storage; the
32-bit register is `statusWord` (`Machine/Flags.lean`). -/
structure Status where
  done : Bool
  busy : Bool
  collide : Bool
  code : Code
deriving DecidableEq, Repr

/-- The fifteen result registers (R73, R20 to R34). -/
structure Results where
  outLen : Word
  syncInfo : Word
  syncPos : Word
  recovLen : Word
  expLen : Word
  actLen : Word
  streamId : Word
  seqCtl : Word
  lenField : Word
  apid : Word
  seqCount : Word
  cmdCode : Word
  seqId : Word
  pflags : Word
  textLen : Word
deriving DecidableEq, Repr

/-- Every result register 0 (R73, R137). -/
def Results.zero : Results :=
  { outLen := 0, syncInfo := 0, syncPos := 0, recovLen := 0, expLen := 0, actLen := 0, streamId := 0, seqCtl := 0,
    lenField := 0, apid := 0, seqCount := 0, cmdCode := 0, seqId := 0, pflags := 0, textLen := 0 }

/-- The registers of the register map, in its order (R15). -/
inductive Reg where
  | cmd | status | inLen | inBitlen
  | outLen | syncInfo | syncPos | recovLen | expLen | actLen
  | streamId | seqCtl | lenField | apid | seqCount | cmdCode | seqId | pflags | textLen
  | ibufSize | obufSize | cmdTextOfs | markerLen
deriving DecidableEq, Repr

/-! ## Buffers -/

/-- The written bytes of a buffer: offsets strictly rising. An unlisted offset has no entry to read: nothing has written
that byte since reset, and it reads as the free value of R139 (`ibufByte`, `obufByte` in `Machine/Ops.lean`; log 12). -/
abbrev Memory := List Host.Cell

/-- The canonical form: offsets strictly rising. Every entry is a byte and an unlisted offset has none, so no entry equals
what an unlisted offset holds. -/
def Memory.wf : Memory → Bool
  | [] => true
  | [_] => true
  | c :: d :: m => decide (c.1 < d.1) && Memory.wf (d :: m)

/-- Every listed offset lies inside a buffer of `size` bytes. -/
def Memory.within (size : Nat) (m : Memory) : Bool := m.all fun c => decide (c.1 < size)

/-! ## The host and the platform -/

/-- The data of one bus access, with its width (R42, R43). -/
inductive BusData where
  | byte (v : Byte)
  | half (v : Half)
  | word (v : Word)
deriving DecidableEq, Repr

/-- The width of a bus access: 8, 16 or 32 bits (R42; other widths are not modelled, log 14). -/
inductive Width where
  | w8 | w16 | w32
deriving DecidableEq, Repr

/-- One operation of the host (R41, R70). -/
inductive HostOp where
  /-- A read of a width at an address. -/
  | read (w : Width) (a : HostAddr)
  /-- A write of data of a width at an address. -/
  | write (a : HostAddr) (d : BusData)
  /-- One byte of `COPYOUT`: a byte read at `src`, then a byte write of what was read at `dst` (two accesses). -/
  | copy (src dst : HostAddr)
  /-- `WAIT`: reads of `STATUS` until `DONE = 1` and `BUSY = 0` (R70, R148). -/
  | wait
deriving DecidableEq, Repr

/-- What the host port answered to the last access. -/
inductive PortAnswer where
  /-- No access yet. -/
  | none
  /-- A write was taken from the port: stored, ignored (R44) or dropped (log 10). -/
  | ack
  /-- A read returned data. -/
  | data (d : BusData)
deriving DecidableEq, Repr

/-- Who moves in a step: an element of the total order of R52, with the platform's reset input (R136). -/
inductive Turn where
  | host
  | engine
  | assertReset
  | releaseReset
deriving DecidableEq, Repr

/-! ## The machine -/

/-- The state of FSYNC and of the agents around it. -/
structure State where
  /-- The parameters the block is built for (R6); `IBUF_SIZE`, `OBUF_SIZE`, `CMD_TEXT_OFS` and `MARKER_LEN` read them
  (R35, R36). No step changes them. -/
  params : Params
  /-- `CMD`, and while busy the latched command word (R16, R39). -/
  cmd : Word
  /-- `STATUS` and the engine's phase (R17, R39). -/
  status : Status
  /-- `IN_LEN` (R18). -/
  inLen : Word
  /-- `IN_BITLEN` (R19). -/
  inBitlen : Word
  /-- The result registers (R73). -/
  results : Results
  /-- `IBUF`: the bytes written since reset (R37). -/
  ibuf : Memory
  /-- `OBUF`: the bytes written since reset (R38). -/
  obuf : Memory
  /-- The reset input is asserted (R136). -/
  inReset : Bool
  /-- The model's own: which reset the unwritten bytes are drawn from (R139; log 2). -/
  epoch : Nat
  /-- The model's own: how many reads were answered with a free value (R142; log 3). -/
  draws : Nat
  /-- The model's own: the host's operations still to come, in program order (R52; log 6). -/
  host : List HostOp
  /-- The model's own: who moves next; when empty, `defaultTurn` says it (R52, R145; log 4, log 5). -/
  turns : List Turn
  /-- The model's own: the host port's last answer (log 6). -/
  port : PortAnswer
deriving DecidableEq, Repr

/-- `STATUS` after reset (R137). -/
def Status.reset : Status := { done := false, busy := false, collide := false, code := .ok }

/-- The machine right after reset when it is built for the parameters `p` (R137): registers 0, buffers with nothing
written, phase idle, reset released. -/
def State.resetFor (p : Params) : State :=
  { params := p, cmd := 0, status := Status.reset, inLen := 0, inBitlen := 0, results := Results.zero,
    ibuf := [], obuf := [], inReset := false, epoch := 0, draws := 0, host := [], turns := [], port := .none }

/-- The machine right after reset (R137). The parameters are OPEN (R6); the model names the ones of the spec's vectors
(DESIGN CHOICE, log 1). -/
def State.reset : State := State.resetFor Config.vectorParams

end Sys2Proof.Machine
end

