-- ==== Sys2Proof/Machine/Ops.lean ====
section
/-! DEFINITION. The named operations over buffers and registers: reads and writes of `IBUF` and `OBUF` (R10, R37, R38),
acceptance (R72), completion and `raise` (R74, R10), a dropped write (R141, R143), and reset (R136 to R139). -/

namespace Sys2Proof.Machine

/-! ## Buffers -/

/-- The byte written last at an offset, `none` when nothing has written it since reset. -/
def Memory.find (a : Nat) : Memory → Option Byte
  | [] => none
  | c :: m => if c.1 = a then some c.2 else Memory.find a m

/-- The cells that hold `bs` from offset `a` on. -/
def Memory.cellsAt (a : Nat) : List Byte → Memory
  | [] => []
  | b :: bs => (a, b) :: Memory.cellsAt (a + 1) bs

/-- `MemWrite(…, a, |bs|, bs)` (R10): the bytes `bs` at offsets `a` to `a + |bs| - 1`, every other byte as before. -/
def Memory.store (a : Nat) (bs : List Byte) (m : Memory) : Memory :=
  m.filter (fun c => decide (c.1 < a)) ++ Memory.cellsAt a bs ++ m.filter (fun c => decide (a + bs.length ≤ c.1))

/-- Byte `a` of `IBUF`: the byte written last, or the value drawn for it at reset (R37, R139). -/
def ibufByte (s : State) (a : Nat) : Byte := (Memory.find a s.ibuf).getD (Config.resetIbufByte s.epoch a)

/-- Byte `a` of `OBUF`: the byte written last, or the value drawn for it at reset (R38, R139). -/
def obufByte (s : State) (a : Nat) : Byte := (Memory.find a s.obuf).getD (Config.resetObufByte s.epoch a)

/-- `MemRead(IBUF, a, n)` (R10). -/
def readIbuf (s : State) (a n : Nat) : List Byte := (List.range' a n).map (ibufByte s)

/-- The bytes `OBUF[a..a+n)`, as the host reads them when the block is idle. -/
def readObuf (s : State) (a n : Nat) : List Byte := (List.range' a n).map (obufByte s)

/-- The host's write of one byte of `IBUF` (R37). -/
def writeIbuf (a : Nat) (b : Byte) (s : State) : State := { s with ibuf := Memory.store a [b] s.ibuf }

/-- `MemWrite(OBUF, 0, |bs|, bs)` and `x[OUT_LEN] <- |bs|` (R20, R38): what every successful command with an output does. -/
def emit (bs : List Byte) (s : State) : State :=
  { s with obuf := Memory.store 0 bs s.obuf, results := { s.results with outLen := BitVec.ofNat 32 bs.length } }

/-! ## The command lifecycle -/

/-- The start actions of an accepted command word (R72). -/
def accept (w : Word) (s : State) : State :=
  { s with
    cmd := w
    status := { done := false, busy := true, collide := false, code := .ok }
    results := Results.zero }

/-- The end of every command (R74): `CODE`, `BUSY <- 0`, `DONE <- 1`, phase idle. `COLLIDE` stays (R17). -/
def complete (c : Code) (s : State) : State :=
  { s with status := { done := true, busy := false, collide := s.status.collide, code := c } }

/-- `raise <Failure>` (R10, R123): the command ends with the failure's code; the result registers the rule lists are
written before. It is not a trap. -/
def raise (c : Code) (s : State) : State := complete c s

/-- A host write that is dropped because a command is in flight: it sets `COLLIDE` and nothing else (R141, R143). -/
def dropWrite (s : State) : State := { s with status := { s.status with collide := true } }

/-! ## Reset -/

/-- Reset is asserted (R136): from now on no access is answered and no completion step happens (R138). -/
def assertReset (s : State) : State := { s with inReset := true }

/-- Reset is released (R136): the state is that of R137 for the block's parameters, and the buffers' bytes are drawn anew
(R138, R139). The host and the platform are outside the block and go on. Without a reset before it, it does nothing
(log 9). -/
def releaseReset (s : State) : State :=
  if s.inReset then
    { State.resetFor s.params with
      epoch := s.epoch + 1, draws := s.draws, host := s.host, turns := s.turns, port := s.port }
  else s

end Sys2Proof.Machine
end

