-- ==== Sys2Proof/Machine/Operands.lean ====
section
/-! DEFINITION. The operands of the commands: conversions between bits and bytes (R9), the big-endian header fields (R45,
R62), the input range checks (R77), and the byte and bit sequences the commands read (R83, R99, R118). -/

namespace Sys2Proof.Machine

/-! ## Bits and bytes -/

/-- The bits of a byte, bit 7 first (R9). -/
def byteBits (b : Byte) : List Bit :=
  [b.getLsbD 7, b.getLsbD 6, b.getLsbD 5, b.getLsbD 4, b.getLsbD 3, b.getLsbD 2, b.getLsbD 1, b.getLsbD 0]

/-- `bits_msb(B)` (R9). -/
def bitsMsb (bs : List Byte) : List Bit := bs.flatMap byteBits

/-- The byte of eight bits, the first one bit 7 (R9). -/
def byteOfBits (b7 b6 b5 b4 b3 b2 b1 b0 : Bit) : Byte :=
  BitVec.ofNat 8
    (128 * b7.toNat + 64 * b6.toNat + 32 * b5.toNat + 16 * b4.toNat + 8 * b3.toNat + 4 * b2.toNat + 2 * b1.toNat + b0.toNat)

/-- `pack_msb(b)` (R9): trailing bits that do not fill a byte are discarded. -/
def packMsb : List Bit → List Byte
  | b7 :: b6 :: b5 :: b4 :: b3 :: b2 :: b1 :: b0 :: rest => byteOfBits b7 b6 b5 b4 b3 b2 b1 b0 :: packMsb rest
  | _ => []

/-! ## Header fields -/

/-- `be16(b0, b1)` (R8). -/
def be16 (b0 b1 : Byte) : Half := b0 ++ b1

/-- Byte `i` of a sequence that is known to be longer than `i`. -/
def byteAt (P : List Byte) (i : Nat) : Byte := P.getD i 0

/-- `stream_id = be16(P[0], P[1])` (R45, R62). -/
def streamIdOf (P : List Byte) : Half := be16 (byteAt P 0) (byteAt P 1)

/-- `sequence_control = be16(P[2], P[3])` (R45, R62). -/
def seqCtlOf (P : List Byte) : Half := be16 (byteAt P 2) (byteAt P 3)

/-- `length_field = be16(P[4], P[5])` (R45, R62). -/
def lenFieldOf (P : List Byte) : Half := be16 (byteAt P 4) (byteAt P 5)

/-- `expected(length_field) = (length_field + 1) mod 2^16` (R64, R94): the sentinel `0xFFFF` gives 0. -/
def expectedLen (lf : Half) : Nat := (lf.toNat + 1) % 2 ^ 16

/-! ## Inputs of a command -/

/-- `x[IN_LEN] <= IBUF_BYTES` (R77). -/
def byteLenOk (s : State) : Bool := decide (s.inLen.toNat ≤ s.params.ibufBytes)

/-- `x[IN_BITLEN] <= 8 * IBUF_BYTES` (R77). -/
def bitLenOk (s : State) : Bool := decide (s.inBitlen.toNat ≤ 8 * s.params.ibufBytes)

/-- The byte operand of `ENCODE` and `PARSE`: `MemRead(IBUF, 0, x[IN_LEN])` (R83, R118). -/
def inputBytes (s : State) : List Byte := readIbuf s 0 s.inLen.toNat

/-- The bit operand of `RECOVER`: the first `x[IN_BITLEN]` bits of `bits_msb(IBUF)` (R46, R99). -/
def inputBits (s : State) : List Bit := (bitsMsb (readIbuf s 0 ((s.inBitlen.toNat + 7) / 8))).take s.inBitlen.toNat

end Sys2Proof.Machine
end

