-- ==== Sys2Proof/Machine/Flags.lean ====
section
/-! DEFINITION. The status and flag registers as 32-bit words: `STATUS` (R17, R124), `SYNC_INFO` (R21), `PFLAGS` (R33). -/

namespace Sys2Proof.Machine

/-- The number of an outcome in `STATUS.CODE` (R124). -/
def codeBits : Code → BitVec 4
  | .ok => 0
  | .preambleNotFound => 1
  | .syncHeaderTooShort => 2
  | .parseHeaderTooShort => 3
  | .illegalCmd => 4
  | .lenRange => 5

/-- `STATUS` as a 32-bit word: `DONE` bit 0, `BUSY` bit 1, `COLLIDE` bit 2, `CODE` bits 11:8, all other bits 0 (R17, R40). -/
def statusWord (st : Status) : Word :=
  (0 : BitVec 20) ++ codeBits st.code ++ (0 : BitVec 5) ++ BitVec.ofBool st.collide ++ BitVec.ofBool st.busy
    ++ BitVec.ofBool st.done

/-- What reconciliation did to the payload (R21, R95). -/
inductive Recon where
  | equal
  | padded
  | truncated
deriving DecidableEq, Repr

/-- `SYNC_INFO.RECON` (R21); 3 is never written. -/
def reconBits : Recon → BitVec 2
  | .equal => 0
  | .padded => 1
  | .truncated => 2

/-- `SYNC_INFO`: `SHIFT` bits 3:0, `RECON` bits 5:4, the rest 0 (R21, R99: `s | (recon << 4)`). -/
def syncInfoWord (shift : Nat) (recon : Recon) : Word :=
  (0 : BitVec 26) ++ reconBits recon ++ BitVec.ofNat 4 shift

/-- `x[SYNC_INFO].SHIFT <- shift` alone, the other bits as they stand (R99, R100). -/
def setShift (w : Word) (shift : Nat) : Word := w.extractLsb' 4 28 ++ BitVec.ofNat 4 shift

/-- `PFLAGS`: `HAS_CMD_CODE | HAS_ID << 1 | TEXT_HEX << 2 | MARKER_FOUND << 3 | ID_OVF << 4` (R33, R118). -/
def pflagsWord (hasCmdCode hasId textHex markerFound idOvf : Bool) : Word :=
  (0 : BitVec 27) ++ BitVec.ofBool idOvf ++ BitVec.ofBool markerFound ++ BitVec.ofBool textHex ++ BitVec.ofBool hasId
    ++ BitVec.ofBool hasCmdCode

end Sys2Proof.Machine
end

