-- ==== Sys2Proof/Machine/FrameEncoder.lean ====
section
/-! DEFINITION. The frame encoder: `spec/41_frame_encoder.md`. -/

namespace Sys2Proof.Machine

/-- `encode(P) = [0xAA, 0xAA] ++ P` (R81). -/
def encodeFrame (P : List Byte) : List Byte := Config.preamble ++ P

/-- `ENCODE` (R83): the range check of R77, then the frame in `OBUF` and its length in `OUT_LEN`. -/
def execEncode (s : State) : Host.Outcome State Fault Refusal :=
  if byteLenOk s then .next (complete .ok (emit (encodeFrame (inputBytes s)) s))
  else .next (raise .lenRange s)

end Sys2Proof.Machine
end

