-- ==== Sys2Proof/Machine/FrameSynchronizer.lean ====
section
/-! DEFINITION. The frame synchronizer: `spec/42_frame_synchronizer.md`. -/

namespace Sys2Proof.Machine

/-! ## The preamble search -/

/-- `PRE = bits_msb([0xAA, 0xAA])`, 16 bits (R87). -/
def preambleBits : List Bit := bitsMsb Config.preamble

/-- The scan of one shift (R88, R89): `l` is the bit sequence from index `pos` on; the candidates are `pos`, `pos + 8`,
`pos + 16`, … and the first one where `PRE` stands is the answer. Fewer than 16 bits hold no candidate. -/
def scanFrom (pos : Nat) : List Bit → Option Nat
  | [] => none
  | l@(_ :: rest) =>
    if l.take 16 = preambleBits then some pos
    else match rest with
      | _ :: _ :: _ :: _ :: _ :: _ :: _ :: tail => scanFrom (pos + 8) tail
      | _ => none

/-- The selection (R89): the least shift in 0 to 8 with any match, and its first match start. -/
def selectPreamble (b : List Bit) : Option (Nat × Nat) :=
  (List.range (Config.maxShift + 1)).findSome? fun s => (scanFrom s (b.drop s)).map fun p => (s, p)

/-! ## The function -/

/-- What a search that found a preamble reports (R86): selected shift, match start, recovered length. -/
structure SyncInfo where
  shift : Nat
  pos : Nat
  recovLen : Nat
deriving DecidableEq, Repr

/-- The failures of `recover` (R86). -/
inductive SyncFailure where
  | preambleNotFound
  | headerTooShort (info : SyncInfo)
deriving DecidableEq, Repr

/-- The result of a successful `recover` (R96). -/
structure Recovered where
  packet : List Byte
  info : SyncInfo
  expected : Nat
  actual : Nat
  recon : Recon
deriving DecidableEq, Repr

/-- The recovered bytes after a preamble at `p` (R92): `pack_msb(b[p+16..N))`. -/
def recoveredBytes (b : List Bit) (p : Nat) : List Byte := packMsb (b.drop (p + 16))

/-- Header-length reconciliation (R95): the body and what was done to it; `payload` is `R[6..|R|)`. -/
def reconcile (payload : List Byte) (expected : Nat) : List Byte × Recon :=
  if payload.length < expected then (payload ++ List.replicate (expected - payload.length) 0, .padded)
  else if expected < payload.length then (payload.take expected, .truncated)
  else (payload, .equal)

/-- The packet and lengths of at least six recovered bytes (R94 to R96). -/
def reconcilePacket (info : SyncInfo) (R : List Byte) : Recovered :=
  let expected := expectedLen (lenFieldOf R)
  let fixed := reconcile (R.drop Config.headerBytes) expected
  { packet := R.take Config.headerBytes ++ fixed.1
    info := info
    expected := expected
    actual := R.length - Config.headerBytes
    recon := fixed.2 }

/-- `recover(b)` (R86 to R96). -/
def recoverPacket (b : List Bit) : Except SyncFailure Recovered :=
  match selectPreamble b with
  | none => .error .preambleNotFound
  | some (s, p) =>
    let R := recoveredBytes b p
    let info : SyncInfo := { shift := s, pos := p, recovLen := R.length }
    if R.length < Config.headerBytes then .error (.headerTooShort info) else .ok (reconcilePacket info R)

/-! ## The command -/

/-- The registers of `SYNC_HEADER_TOO_SHORT`: `SYNC_INFO.SHIFT`, `SYNC_POS` and `RECOV_LEN` (R99, R100). -/
def reportShortSync (info : SyncInfo) (s : State) : State :=
  { s with results := { s.results with
      syncInfo := setShift s.results.syncInfo info.shift
      syncPos := BitVec.ofNat 32 info.pos
      recovLen := BitVec.ofNat 32 info.recovLen } }

/-- The registers of a successful `RECOVER` but for `OUT_LEN` (R99). -/
def reportRecovered (r : Recovered) (s : State) : State :=
  { s with results := { s.results with
      syncInfo := syncInfoWord r.info.shift r.recon
      syncPos := BitVec.ofNat 32 r.info.pos
      recovLen := BitVec.ofNat 32 r.info.recovLen
      expLen := BitVec.ofNat 32 r.expected
      actLen := BitVec.ofNat 32 r.actual
      streamId := (streamIdOf r.packet).setWidth 32
      seqCtl := (seqCtlOf r.packet).setWidth 32
      lenField := (lenFieldOf r.packet).setWidth 32 } }

/-- What `RECOVER` does with the result of `recover` (R99). -/
def finishRecover (r : Except SyncFailure Recovered) (s : State) : State :=
  match r with
  | .error .preambleNotFound => raise .preambleNotFound s
  | .error (.headerTooShort info) => raise .syncHeaderTooShort (reportShortSync info s)
  | .ok r => complete .ok (reportRecovered r (emit r.packet s))

/-- `RECOVER` (R99): the range check of R77, then `recover` on the bits of `IBUF`. -/
def execRecover (s : State) : Host.Outcome State Fault Refusal :=
  if bitLenOk s then .next (finishRecover (recoverPacket (inputBits s)) s)
  else .next (raise .lenRange s)

end Sys2Proof.Machine
end

