-- ==== Sys2Proof/Machine/Lifecycle.lean ====
section
/-! DEFINITION. `CLEAR` (R76) and the completion of an illegal word (R75): `spec/40_command_lifecycle.md`. -/

namespace Sys2Proof.Machine

/-- `CLEAR` (R76): no computation; its completion step writes `CODE <- 0` and ends the command. The result registers were
zeroed by the start actions (R72). -/
def execClear (s : State) : Host.Outcome State Fault Refusal := .next (complete .ok s)

/-- The completion of an accepted word that is no command (R75): `raise ILLEGAL_CMD`, no other output. -/
def illegalCommand (s : State) : Host.Outcome State Fault Refusal := .next (raise .illegalCmd s)

end Sys2Proof.Machine
end

