-- ==== Sys2Proof/Machine/PacketParser.lean ====
section
/-! DEFINITION. The packet field parser: `spec/43_packet_field_parser.md`. -/

namespace Sys2Proof.Machine

/-! ## UTF-8 -/

/-- A row of the table of well-formed UTF-8 sequences (R111): the range of the first byte and the ranges of the bytes after
it, all inclusive. -/
structure Utf8Row where
  lo : Byte
  hi : Byte
  tail : List (Byte × Byte)
deriving DecidableEq, Repr

/-- The table of R111, row by row. -/
def utf8Rows : List Utf8Row :=
  [ ⟨0x00#8, 0x7F#8, []⟩,
    ⟨0xC2#8, 0xDF#8, [(0x80#8, 0xBF#8)]⟩,
    ⟨0xE0#8, 0xE0#8, [(0xA0#8, 0xBF#8), (0x80#8, 0xBF#8)]⟩,
    ⟨0xE1#8, 0xEC#8, [(0x80#8, 0xBF#8), (0x80#8, 0xBF#8)]⟩,
    ⟨0xED#8, 0xED#8, [(0x80#8, 0x9F#8), (0x80#8, 0xBF#8)]⟩,
    ⟨0xEE#8, 0xEF#8, [(0x80#8, 0xBF#8), (0x80#8, 0xBF#8)]⟩,
    ⟨0xF0#8, 0xF0#8, [(0x90#8, 0xBF#8), (0x80#8, 0xBF#8), (0x80#8, 0xBF#8)]⟩,
    ⟨0xF1#8, 0xF3#8, [(0x80#8, 0xBF#8), (0x80#8, 0xBF#8), (0x80#8, 0xBF#8)]⟩,
    ⟨0xF4#8, 0xF4#8, [(0x80#8, 0x8F#8), (0x80#8, 0xBF#8), (0x80#8, 0xBF#8)]⟩ ]

/-- A byte lies in an inclusive range. -/
def inRange (b lo hi : Byte) : Bool := decide (lo.toNat ≤ b.toNat) && decide (b.toNat ≤ hi.toNat)

/-- The ranges the bytes after a first byte `b` must lie in, `none` when no sequence begins with `b` (R111). -/
def utf8Lead (b : Byte) : Option (List (Byte × Byte)) :=
  (utf8Rows.find? fun r => inRange b r.lo r.hi).map fun r => r.tail

/-- The bytes are `need`'s ranges in order and then well-formed sequences. -/
def utf8After (need : List (Byte × Byte)) : List Byte → Bool
  | [] => need.isEmpty
  | b :: bs =>
    match need with
    | (lo, hi) :: need' => inRange b lo hi && utf8After need' bs
    | [] =>
      match utf8Lead b with
      | some need' => utf8After need' bs
      | none => false

/-- `utf8_ok(r)` (R111). -/
def utf8Ok (r : List Byte) : Bool := utf8After [] r

/-! ## Text -/

/-- `strip_nul(r)` (R112): the `0x00` bytes at the end are removed. -/
def stripNul (r : List Byte) : List Byte := (r.reverse.dropWhile fun b => b == 0x00#8).reverse

/-- The ASCII byte of a lowercase hex digit (R12). -/
def hexDigit (n : Nat) : Byte := if n < 10 then BitVec.ofNat 8 (0x30 + n) else BitVec.ofNat 8 (0x57 + n)

/-- `hex_lower(r)` (R113): the high and the low nibble of each byte. -/
def hexLower (r : List Byte) : List Byte := r.flatMap fun b => [hexDigit (b.toNat / 16), hexDigit (b.toNat % 16)]

/-- `0x30 <= b <= 0x39`: an ASCII digit (R114). -/
def isDigit (b : Byte) : Bool := inRange b 0x30#8 0x39#8

/-- `dec(d)` (R115): the natural number of a run of ASCII digits, most significant first. -/
def decValue (d : List Byte) : Nat := d.foldl (fun n b => 10 * n + (b.toNat - 0x30)) 0

/-- The bytes before the first `':'`, and the bytes after it; `none` when there is no `':'` (R114). -/
def splitColon : List Byte → Option (List Byte × List Byte)
  | [] => none
  | b :: bs =>
    if b = 0x3A#8 then some ([], bs)
    else match splitColon bs with
      | some (d, t) => some (b :: d, t)
      | none => none

/-- The id and the text of a decoded region (R114): the id is taken when the bytes before the first `':'` are one or more
digits. -/
def splitId (t : List Byte) : Option Nat × List Byte :=
  match splitColon t with
  | some (d, rest) => if d.isEmpty = false ∧ d.all isDigit then (some (decValue d), rest) else (none, t)
  | none => (none, t)

/-! ## The application region -/

/-- The direction of a packet (R103), chosen by the command (R60). -/
inductive Direction where
  | cmd
  | tlm
deriving DecidableEq, Repr

/-- The application region (R109, R110). -/
structure Region where
  bytes : List Byte
  markerFound : Bool
  idAllowed : Bool
deriving DecidableEq, Repr

/-- The bytes after the first occurrence of the marker `M` in a sequence (R110). -/
def afterMarker (M : List Byte) : List Byte → Option (List Byte)
  | [] => if M.isEmpty then some [] else none
  | b :: bs => if M.isPrefixOf (b :: bs) then some ((b :: bs).drop M.length) else afterMarker M bs

/-- The region of a packet in command direction (R109). -/
def commandRegion (p : Params) (P : List Byte) : Region :=
  { bytes := P.drop p.cmdTextOffset, markerFound := false, idAllowed := true }

/-- The region of a packet in telemetry direction (R110): the marker is searched after the header only. -/
def telemetryRegion (p : Params) (P : List Byte) : Region :=
  match afterMarker p.tlmMarker (P.drop Config.headerBytes) with
  | some r => { bytes := r, markerFound := true, idAllowed := true }
  | none => { bytes := P.drop Config.headerBytes, markerFound := false, idAllowed := false }

/-- The region of a packet (R109, R110). -/
def regionOf (p : Params) : Direction → List Byte → Region
  | .cmd, P => commandRegion p P
  | .tlm, P => telemetryRegion p P

/-- The id, whether the text is hex, and the text of a region (R112 to R116). -/
def decodeRegion (r : Region) : Option Nat × Bool × List Byte :=
  if utf8Ok r.bytes then
    if r.idAllowed then ((splitId (stripNul r.bytes)).1, false, (splitId (stripNul r.bytes)).2)
    else (none, false, stripNul r.bytes)
  else (none, true, hexLower r.bytes)

/-! ## The function -/

/-- The fields of a parsed packet (R103). -/
structure ParsedFields where
  streamId : Half
  seqCtl : Half
  lenField : Half
  apid : Half
  seqCount : Half
  cmdCode : Option Byte
  markerFound : Bool
  id : Option Nat
  textHex : Bool
  text : List Byte
deriving DecidableEq, Repr

/-- The failure of `parse` (R104). -/
inductive ParseFailure where
  | headerTooShort
deriving DecidableEq, Repr

/-- The command code (R108): the byte `P[6]` of a command-direction packet of at least 7 bytes. -/
def cmdCodeOf : Direction → List Byte → Option Byte
  | .cmd, P => P[Config.cmdCodeOffset]?
  | .tlm, _ => none

/-- `parse(P, dir)` (R103 to R117). -/
def parsePacket (p : Params) (dir : Direction) (P : List Byte) : Except ParseFailure ParsedFields :=
  if P.length < Config.headerBytes then .error .headerTooShort
  else
    let r := regionOf p dir P
    let d := decodeRegion r
    .ok
      { streamId := streamIdOf P
        seqCtl := seqCtlOf P
        lenField := lenFieldOf P
        apid := streamIdOf P &&& Config.apidMask
        seqCount := seqCtlOf P &&& Config.seqCountMask
        cmdCode := cmdCodeOf dir P
        markerFound := r.markerFound
        id := d.1
        textHex := d.2.1
        text := d.2.2 }

/-! ## The commands -/

/-- `ID_OVF`: there is an id and it is at least `2^32` (R115). -/
def idOverflow : Option Nat → Bool
  | some n => decide (2 ^ 32 ≤ n)
  | none => false

/-- `PFLAGS` of the parsed fields (R118, R119). -/
def pflagsOf (f : ParsedFields) : Word :=
  pflagsWord f.cmdCode.isSome f.id.isSome f.textHex f.markerFound (idOverflow f.id)

/-- The registers of a successful `PARSE` but for `OUT_LEN` (R118): `CMD_CODE` and `SEQ_ID` only when there is a code, an
id; `SEQ_ID` is the id modulo `2^32`. -/
def reportParsed (f : ParsedFields) (s : State) : State :=
  { s with results := { s.results with
      streamId := f.streamId.setWidth 32
      seqCtl := f.seqCtl.setWidth 32
      lenField := f.lenField.setWidth 32
      apid := f.apid.setWidth 32
      seqCount := f.seqCount.setWidth 32
      cmdCode := (match f.cmdCode with
        | some v => v.setWidth 32
        | none => s.results.cmdCode)
      seqId := (match f.id with
        | some n => BitVec.ofNat 32 n
        | none => s.results.seqId)
      pflags := pflagsOf f
      textLen := BitVec.ofNat 32 f.text.length } }

/-- What `PARSE` does with the result of `parse` (R118). -/
def finishParse (r : Except ParseFailure ParsedFields) (s : State) : State :=
  match r with
  | .error .headerTooShort => raise .parseHeaderTooShort s
  | .ok f => complete .ok (reportParsed f (emit f.text s))

/-- Both `PARSE` forms (R118, R119): the range check of R77, then `parse` on the bytes of `IBUF`. -/
def parseCommand (dir : Direction) (s : State) : Host.Outcome State Fault Refusal :=
  if byteLenOk s then .next (finishParse (parsePacket s.params dir (inputBytes s)) s)
  else .next (raise .lenRange s)

/-- `PARSE.CMD` (R118). -/
def execParseCmd (s : State) : Host.Outcome State Fault Refusal := parseCommand .cmd s

/-- `PARSE.TLM` (R119). -/
def execParseTlm (s : State) : Host.Outcome State Fault Refusal := parseCommand .tlm s

end Sys2Proof.Machine
end

