-- ==== Sys2Proof/Machine/Dispatch.lean ====
section
/-! DEFINITION. The completion step of each command (R74): one arm per row of the command table (R58). -/

namespace Sys2Proof.Machine

/-- The engine's completion step of a command: from the state as it stands, what the command's rule writes (R74). -/
def exec (i : Instr) (s : State) : Host.Outcome State Fault Refusal :=
  match i with
  | .clear => Sys2Proof.Machine.execClear s
  | .encode => Sys2Proof.Machine.execEncode s
  | .recover => Sys2Proof.Machine.execRecover s
  | .parseCmd => Sys2Proof.Machine.execParseCmd s
  | .parseTlm => Sys2Proof.Machine.execParseTlm s

end Sys2Proof.Machine
end

