-- ==== Sys2Proof/Machine/HostPort.lean ====
section
/-! DEFINITION. The host port: the register map (R15), the address map (R41 to R43), what reads and writes do, idle and busy
(R44, R51, R71, R141 to R144), and one turn of the host (R52). -/

namespace Sys2Proof.Machine

/-! ## The register map -/

/-- Host access to a register (R15). -/
inductive RegAccess where
  | rw
  | ro
  | roP
deriving DecidableEq, Repr

/-- The registers in the order of the map (R15). -/
def allRegs : List Reg :=
  [.cmd, .status, .inLen, .inBitlen, .outLen, .syncInfo, .syncPos, .recovLen, .expLen, .actLen, .streamId, .seqCtl,
   .lenField, .apid, .seqCount, .cmdCode, .seqId, .pflags, .textLen, .ibufSize, .obufSize, .cmdTextOfs, .markerLen]

/-- Byte offset in `REG` (R15). -/
def Reg.offset : Reg → Nat
  | .cmd => 0x00
  | .status => 0x04
  | .inLen => 0x08
  | .inBitlen => 0x0C
  | .outLen => 0x10
  | .syncInfo => 0x14
  | .syncPos => 0x18
  | .recovLen => 0x1C
  | .expLen => 0x20
  | .actLen => 0x24
  | .streamId => 0x28
  | .seqCtl => 0x2C
  | .lenField => 0x30
  | .apid => 0x34
  | .seqCount => 0x38
  | .cmdCode => 0x3C
  | .seqId => 0x40
  | .pflags => 0x44
  | .textLen => 0x48
  | .ibufSize => 0x4C
  | .obufSize => 0x50
  | .cmdTextOfs => 0x54
  | .markerLen => 0x58

/-- Access column of the register map (R15). -/
def Reg.access : Reg → RegAccess
  | .cmd => .rw
  | .inLen => .rw
  | .inBitlen => .rw
  | .ibufSize => .roP
  | .obufSize => .roP
  | .cmdTextOfs => .roP
  | .markerLen => .roP
  | .status => .ro
  | .outLen => .ro
  | .syncInfo => .ro
  | .syncPos => .ro
  | .recovLen => .ro
  | .expLen => .ro
  | .actLen => .ro
  | .streamId => .ro
  | .seqCtl => .ro
  | .lenField => .ro
  | .apid => .ro
  | .seqCount => .ro
  | .cmdCode => .ro
  | .seqId => .ro
  | .pflags => .ro
  | .textLen => .ro

/-- Result column of the register map (R15, R73). -/
def Reg.isResult : Reg → Bool
  | .cmd => false
  | .status => false
  | .inLen => false
  | .inBitlen => false
  | .ibufSize => false
  | .obufSize => false
  | .cmdTextOfs => false
  | .markerLen => false
  | .outLen => true
  | .syncInfo => true
  | .syncPos => true
  | .recovLen => true
  | .expLen => true
  | .actLen => true
  | .streamId => true
  | .seqCtl => true
  | .lenField => true
  | .apid => true
  | .seqCount => true
  | .cmdCode => true
  | .seqId => true
  | .pflags => true
  | .textLen => true

/-- The register at an offset, `none` for an unmapped or unaligned one (R15, R42). -/
def regAt (o : BitVec 8) : Option Reg := allRegs.find? fun r => r.offset == o.toNat

/-- `x[r]`: the 32-bit value a register holds (R10, R16 to R36). -/
def readReg (r : Reg) (s : State) : Word :=
  match r with
  | .cmd => s.cmd
  | .status => statusWord s.status
  | .inLen => s.inLen
  | .inBitlen => s.inBitlen
  | .outLen => s.results.outLen
  | .syncInfo => s.results.syncInfo
  | .syncPos => s.results.syncPos
  | .recovLen => s.results.recovLen
  | .expLen => s.results.expLen
  | .actLen => s.results.actLen
  | .streamId => s.results.streamId
  | .seqCtl => s.results.seqCtl
  | .lenField => s.results.lenField
  | .apid => s.results.apid
  | .seqCount => s.results.seqCount
  | .cmdCode => s.results.cmdCode
  | .seqId => s.results.seqId
  | .pflags => s.results.pflags
  | .textLen => s.results.textLen
  | .ibufSize => BitVec.ofNat 32 s.params.ibufBytes
  | .obufSize => BitVec.ofNat 32 s.params.obufBytes
  | .cmdTextOfs => BitVec.ofNat 32 s.params.cmdTextOffset
  | .markerLen => BitVec.ofNat 32 s.params.tlmMarker.length

/-! ## The address map -/

/-- What a host address means (R41). -/
inductive Target where
  | reg (r : Reg)
  | ibuf (offset : Nat)
  | obuf (offset : Nat)
deriving DecidableEq, Repr

/-- `A[27:24]`, the address space (R41). -/
def spaceOf (a : HostAddr) : BitVec 4 := a.extractLsb' 24 4

/-- `A[23:0]`, the offset in a buffer (R41). -/
def bufferOffset (a : HostAddr) : Nat := (a.extractLsb' 0 24).toNat

/-- The target of an access of width `w` at address `a`; `none` is a bus error (R42, R43): `REG` takes aligned 32-bit
accesses at mapped offsets with `A[23:8] = 0`, a buffer takes 8-bit accesses below its size. -/
def targetOf (p : Params) (w : Width) (a : HostAddr) : Option Target :=
  if spaceOf a = 0 then
    if w = .w32 ∧ a.extractLsb' 8 16 = 0 then (regAt (a.extractLsb' 0 8)).map Target.reg else none
  else if spaceOf a = 1 then
    if w = .w8 ∧ bufferOffset a < p.ibufBytes then some (.ibuf (bufferOffset a)) else none
  else if spaceOf a = 2 then
    if w = .w8 ∧ bufferOffset a < p.obufBytes then some (.obuf (bufferOffset a)) else none
  else none

/-- The width of an access that carries data. -/
def widthOf : BusData → Width
  | .byte _ => .w8
  | .half _ => .w16
  | .word _ => .w32

/-- The host address of a register (R41). -/
def regAddr (r : Reg) : HostAddr := BitVec.ofNat 28 r.offset

/-- The host address of byte `a` of `IBUF`, for an offset below `2^24` (R41). -/
def ibufAddr (a : Nat) : HostAddr := BitVec.ofNat 28 (0x1000000 + a)

/-- The host address of byte `a` of `OBUF`, for an offset below `2^24` (R41). -/
def obufAddr (a : Nat) : HostAddr := BitVec.ofNat 28 (0x2000000 + a)

/-! ## Reads -/

/-- A read of a register. While busy a result register answers a free value, a fresh one for each read (R142); every other
read answers the exact value and changes nothing (R51, R144). -/
def portReadReg (r : Reg) (s : State) : BusData × State :=
  if s.status.busy ∧ r.isResult then (.word (Config.busyWord s.draws), { s with draws := s.draws + 1 })
  else (.word (readReg r s), s)

/-- A read of byte `a` of `OBUF`: a free value while busy (R142). -/
def portReadObuf (a : Nat) (s : State) : BusData × State :=
  if s.status.busy then (.byte (Config.busyByte s.draws), { s with draws := s.draws + 1 })
  else (.byte (obufByte s a), s)

/-- A read of a target. -/
def portRead (t : Target) (s : State) : BusData × State :=
  match t with
  | .reg r => portReadReg r s
  | .ibuf a => (.byte (ibufByte s a), s)
  | .obuf a => portReadObuf a s

/-! ## Writes -/

/-- A 32-bit write of a register. `CMD`: accepted when idle (R71), dropped when busy (R143). `IN_LEN`, `IN_BITLEN`: stored
when idle, dropped when busy (R141). All others are read-only: ignored (R44). -/
def portWriteReg (r : Reg) (v : Word) (s : State) : State :=
  match r with
  | .cmd => if s.status.busy then dropWrite s else accept v s
  | .inLen => if s.status.busy then dropWrite s else { s with inLen := v }
  | .inBitlen => if s.status.busy then dropWrite s else { s with inBitlen := v }
  | .status => s
  | .outLen => s
  | .syncInfo => s
  | .syncPos => s
  | .recovLen => s
  | .expLen => s
  | .actLen => s
  | .streamId => s
  | .seqCtl => s
  | .lenField => s
  | .apid => s
  | .seqCount => s
  | .cmdCode => s
  | .seqId => s
  | .pflags => s
  | .textLen => s
  | .ibufSize => s
  | .obufSize => s
  | .cmdTextOfs => s
  | .markerLen => s

/-- An 8-bit write of byte `a` of `IBUF`: stored when idle, dropped when busy (R141). -/
def portWriteIbuf (a : Nat) (b : Byte) (s : State) : State := if s.status.busy then dropWrite s else writeIbuf a b s

/-- A write of data to a target of its width. A byte of `OBUF` takes none (R44). -/
def portWrite (t : Target) (d : BusData) (s : State) : State :=
  match t, d with
  | .reg r, .word v => portWriteReg r v s
  | .ibuf a, .byte b => portWriteIbuf a b s
  | _, _ => s

/-! ## One host operation -/

/-- A bus read (R42, R43): the data and the state after it, `none` for a bus error. -/
def busRead (w : Width) (a : HostAddr) (s : State) : Option (BusData × State) :=
  (targetOf s.params w a).map fun t => portRead t s

/-- A bus write (R42, R43): the state after it, `none` for a bus error. -/
def busWrite (a : HostAddr) (d : BusData) (s : State) : Option State :=
  (targetOf s.params (widthOf d) a).map fun t => portWrite t d s

/-- The poll of `WAIT` (R70, R148): the host goes on when it reads `DONE = 1` and `BUSY = 0`, else it reads again. -/
def pollStatus (rest : List HostOp) (s : State) : State :=
  { s with
    port := .data (.word (readReg .status s))
    host := if s.status.done ∧ ¬ s.status.busy then rest else .wait :: rest }

/-- The host's next operation, with `rest` the ones after it (R52). A bus error is a fault (R132). -/
def hostAccess (op : HostOp) (rest : List HostOp) (s : State) : Host.Outcome State Fault Refusal :=
  match op with
  | .read w a =>
    match busRead w a s with
    | some (d, s') => .next { s' with port := .data d, host := rest }
    | none => .fault .busError
  | .write a d =>
    match busWrite a d s with
    | some s' => .next { s' with port := .ack, host := rest }
    | none => .fault .busError
  | .copy src dst =>
    match busRead .w8 src s with
    | some (d, s') => .next { s' with port := .data d, host := .write dst d :: rest }
    | none => .fault .busError
  | .wait => .next (pollStatus rest s)

/-- A turn of the host: its next operation, if it has one. While reset is asserted the port answers no access (R136), so
the operation waits (log 9). -/
def hostTurn (s : State) : Host.Outcome State Fault Refusal :=
  if s.inReset then .next s
  else match s.host with
    | [] => .next s
    | op :: rest => hostAccess op rest s

end Sys2Proof.Machine
end

