-- ==== Sys2Proof/WellFormed.lean ====
section
/-! DEFINITION. Well-formedness: of a configuration (the constraints of R6) and of an instruction. -/

namespace Sys2Proof

/-- `8 <= IBUF_BYTES <= 2^23` (R6). -/
def Params.ibufSizeOk (p : Params) : Bool := decide (8 ≤ p.ibufBytes) && decide (p.ibufBytes ≤ 2 ^ 23)

/-- `max(65541, 2*IBUF_BYTES) <= OBUF_BYTES <= 2^24` (R6). -/
def Params.obufSizeOk (p : Params) : Bool :=
  decide (max 65541 (2 * p.ibufBytes) ≤ p.obufBytes) && decide (p.obufBytes ≤ 2 ^ 24)

/-- `6 <= CMD_TEXT_OFFSET <= IBUF_BYTES` (R6). -/
def Params.textOffsetOk (p : Params) : Bool := decide (6 ≤ p.cmdTextOffset) && decide (p.cmdTextOffset ≤ p.ibufBytes)

/-- `1 <= |TLM_MARKER| <= 255` (R6). -/
def Params.markerOk (p : Params) : Bool := decide (1 ≤ p.tlmMarker.length) && decide (p.tlmMarker.length ≤ 255)

/-- A configuration the block can be built for: every constraint of R6 holds. -/
def Params.wf (p : Params) : Bool := p.ibufSizeOk && p.obufSizeOk && p.textOffsetOk && p.markerOk

/-- An instruction is well formed: a command has no register, immediate or other operand that could be out of range (R57),
so all five are. -/
def Instr.wf : Instr → Bool
  | .clear => true
  | .encode => true
  | .recover => true
  | .parseCmd => true
  | .parseTlm => true

end Sys2Proof
end

