-- ==== Sys2Proof/Machine/Engine.lean ====
section
/-! DEFINITION. The engine's turn (R74), the order of the agents (R52, R145), and how a command word is placed so that the
next step runs it. -/

namespace Sys2Proof.Machine

/-- The completion step of the latched word (R74): the command it decodes to, or `ILLEGAL_CMD` (R59, R75). -/
def completionStep (s : State) : Host.Outcome State Fault Refusal :=
  match decode s.cmd with
  | .ok i => exec i s
  | .error _ => illegalCommand s

/-- A turn of the engine: its completion step while it is busy and reset is not asserted (R74, R138); otherwise it has no
enabled step and nothing changes. -/
def engineTurn (s : State) : Host.Outcome State Fault Refusal :=
  if s.status.busy ∧ ¬ s.inReset then completionStep s else .next s

/-- Who moves when the list of turns is empty: the engine while a command is in flight, so that every command completes
(the fairness of R145; DESIGN CHOICE, log 5), else the host. -/
def defaultTurn (s : State) : Turn := if s.status.busy ∧ ¬ s.inReset then .engine else .host

/-- Who moves in this step (R52). -/
def currentTurn (s : State) : Turn := s.turns.headD (defaultTurn s)

/-- The state with the turn taken off the list. -/
def takeTurn (s : State) : State := { s with turns := s.turns.tail }

/-- One step of the given agent. -/
def agentStep (t : Turn) (s : State) : Host.Outcome State Fault Refusal :=
  match t with
  | .host => hostTurn s
  | .engine => engineTurn s
  | .assertReset => .next (assertReset s)
  | .releaseReset => .next (releaseReset s)

/-- One step of FSYNC with the agents around it (R52). A configuration that breaks a constraint of R6 is refused (U16). -/
def machineStep (s : State) : Host.Outcome State Fault Refusal :=
  if s.params.wf then agentStep (currentTurn s) (takeTurn s) else .refused .badConfiguration

/-- The command word `w` as the host has just written it to `CMD` on an idle block out of reset (R71, R72), and the engine's
turn next: the next step is its completion step (log 11). -/
def placeCommand (w : Word) (s : State) : State :=
  { accept w s with turns := .engine :: s.turns, inReset := false }

end Sys2Proof.Machine
end

