-- ==== Sys2Proof/Machine/Step.lean ====
section
/-! DEFINITION. The step of the machine. -/

namespace Sys2Proof.Machine

/-- One step: the agent whose turn it is moves (R52). -/
def step (s : State) : Host.Outcome State Fault Refusal := machineStep s

/-- `s` with the command word in the `nbits` lowest bits of `w` accepted and the engine's turn next (log 11). -/
def State.withFetchWord (s : State) (nbits w : Nat) : State := placeCommand (BitVec.ofNat 32 (w % 2 ^ nbits)) s

end Sys2Proof.Machine
end

