-- ==== Sys2Proof/Machine/HostNotation.lean ====
section
/-! DEFINITION. The host notation of `spec/30_encoding.md` R70: its lines and the bus operations each one makes. -/

namespace Sys2Proof.Machine

/-- A line of a host program (R70). -/
inductive HostLine where
  /-- `WR <reg>, <value>`. -/
  | wr (r : Reg) (v : Word)
  /-- `RD <reg>`. -/
  | rd (r : Reg)
  /-- `WRB IBUF[<a>], <b>`. -/
  | wrb (a : Nat) (b : Byte)
  /-- `WRBS IBUF[<a>], <b0> <b1> ...`. -/
  | wrbs (a : Nat) (bs : List Byte)
  /-- `RDB OBUF[<a>]`. -/
  | rdb (a : Nat)
  /-- A command mnemonic: `WR CMD, <word of rule R58>`. -/
  | command (i : Instr)
  /-- `WAIT`. -/
  | wait
  /-- `COPYOUT <n>`. -/
  | copyout (n : Nat)
deriving DecidableEq, Repr

/-- `WRBS` as byte writes at rising offsets (R70). -/
def writeBytesOps (a : Nat) : List Byte → List HostOp
  | [] => []
  | b :: bs => .write (ibufAddr a) (.byte b) :: writeBytesOps (a + 1) bs

/-- The operations of a line (R70). -/
def assembleLine : HostLine → List HostOp
  | .wr r v => [.write (regAddr r) (.word v)]
  | .rd r => [.read .w32 (regAddr r)]
  | .wrb a b => [.write (ibufAddr a) (.byte b)]
  | .wrbs a bs => writeBytesOps a bs
  | .rdb a => [.read .w8 (obufAddr a)]
  | .command i => [.write (regAddr .cmd) (.word (encode i))]
  | .wait => [.wait]
  | .copyout n => (List.range n).map fun a => .copy (obufAddr a) (ibufAddr a)

/-- The operations of a host program (R70). -/
def assemble (ls : List HostLine) : List HostOp := ls.flatMap assembleLine

end Sys2Proof.Machine
end

