-- ==== Sys2Proof/Safety.lean ====
section
/-! DEFINITION. What counts as a safe state and a safe run: the invariants the spec promises, in the words the statements
use. -/

namespace Sys2Proof.Machine

/-- The buffers are in canonical form and no byte outside them is written (R37, R38, R49). -/
def State.buffersOk (s : State) : Bool :=
  Memory.wf s.ibuf && Memory.within s.params.ibufBytes s.ibuf
    && Memory.wf s.obuf && Memory.within s.params.obufBytes s.obuf

/-- `DONE` and `BUSY` never hold together, and before the first command `CODE` is 0 (R17). -/
def State.handshakeOk (s : State) : Bool :=
  !(s.status.done && s.status.busy) && (s.status.done || decide (s.status.code = .ok))

/-- While a command is in flight every result register is 0 (R72, R73). -/
def State.resultsClearOk (s : State) : Bool := !s.status.busy || decide (s.results = Results.zero)

/-- The bits of each result register above its stated width are 0 (R20 to R34, R40), and `SYNC_INFO` holds a shift up to 8
and no reserved `RECON` (R21). -/
def Results.widthsOk (r : Results) : Bool :=
  decide (r.syncInfo.toNat < 2 ^ 6) && decide (r.syncInfo.toNat % 16 ≤ 8) && decide (r.syncInfo.toNat / 16 ≤ 2)
    && decide (r.expLen.toNat < 2 ^ 17) && decide (r.streamId.toNat < 2 ^ 16) && decide (r.seqCtl.toNat < 2 ^ 16)
    && decide (r.lenField.toNat < 2 ^ 16) && decide (r.apid.toNat < 2 ^ 11) && decide (r.seqCount.toNat < 2 ^ 14)
    && decide (r.cmdCode.toNat < 2 ^ 8) && decide (r.pflags.toNat < 2 ^ 5)

/-- A failure leaves `OUT_LEN = 0` and `TEXT_LEN = 0` (R78). -/
def State.failureQuiet (s : State) : Bool :=
  decide (s.status.code = .ok) || (decide (s.results.outLen = 0) && decide (s.results.textLen = 0))

/-- The output a host reads lies inside `OBUF` (R20, R49). -/
def State.outputFits (s : State) : Bool := decide (s.results.outLen.toNat ≤ s.params.obufBytes)

/-- The invariant of the machine. -/
def State.inv (s : State) : Bool :=
  s.params.wf && s.buffersOk && s.handshakeOk && s.resultsClearOk && s.results.widthsOk && s.failureQuiet && s.outputFits

/-- The engine is idle and out of reset: a `CMD` write would be accepted (R71). -/
def State.idle (s : State) : Bool := !s.status.busy && !s.inReset

end Sys2Proof.Machine
end

