-- ==== Sys2Proof/Certificates/Slice0/Obligations.lean ====
section
/-! DEFINITION. The statements for the provers. Each is a `def Obligations.<Name> : Prop`; its docstring cites the rules. The
names of `Sys2Proof.Machine` before them are the words the statements are written in. -/

namespace Sys2Proof.Machine

/-! ## Words for the host's and the engine's steps -/

/-- It is the host's turn, its next operation is `op`, and the port answers (R52, R136). -/
def State.hostReady (s : State) (op : HostOp) (rest : List HostOp) : Prop :=
  s.params.wf = true ∧ s.inReset = false ∧ currentTurn s = .host ∧ s.host = op :: rest

/-- The state after a host operation that changed nothing in the block: the turn and the operation are used up and the port
has answered. -/
def State.afterHost (s : State) (rest : List HostOp) (ans : PortAnswer) : State :=
  { s with turns := s.turns.tail, host := rest, port := ans }

/-- It is the engine's turn and a command is in flight (R74). -/
def State.engineTurnReady (s : State) : Prop :=
  s.params.wf = true ∧ s.inReset = false ∧ currentTurn s = .engine ∧ s.status.busy = true

/-- What a completion step leaves of `STATUS` (R74). -/
def Status.completed (st : Status) (c : Code) : Status :=
  { done := true, busy := false, collide := st.collide, code := c }

/-- Nothing that a completion step may not write has changed: parameters, `CMD`, input registers, `IBUF`, the reset input and
the agents around the block (R74, R49). -/
def State.engineFrame (s t : State) : Prop :=
  t.params = s.params ∧ t.cmd = s.cmd ∧ t.inLen = s.inLen ∧ t.inBitlen = s.inBitlen ∧ t.ibuf = s.ibuf ∧
    t.inReset = s.inReset ∧ t.epoch = s.epoch ∧ t.draws = s.draws ∧ t.host = s.host ∧ t.turns = s.turns ∧ t.port = s.port

/-- `OBUF` after an output of `bs`: these bytes from offset 0, every other byte as before (R38). -/
def State.obufShows (s t : State) (bs : List Byte) : Prop :=
  ∀ a, obufByte t a = if h : a < bs.length then bs[a] else obufByte s a

/-- The accesses R42 and R43 allow, in numbers: an aligned 32-bit access at offset 0 to 0x58 of `REG`, an 8-bit access below
the size of a buffer. -/
def accessAllowed (p : Params) (w : Width) (a : HostAddr) : Prop :=
  (a.toNat / 2 ^ 24 = 0 ∧ w = .w32 ∧ a.toNat % 2 ^ 24 ≤ 0x58 ∧ a.toNat % 4 = 0) ∨
    (a.toNat / 2 ^ 24 = 1 ∧ w = .w8 ∧ a.toNat % 2 ^ 24 < p.ibufBytes) ∨
    (a.toNat / 2 ^ 24 = 2 ∧ w = .w8 ∧ a.toNat % 2 ^ 24 < p.obufBytes)

/-! ## Words for the synchronizer -/

/-- `PRE` stands at bit `p` of `b` (R87). -/
def matchAt (b : List Bit) (p : Nat) : Prop := p + 16 ≤ b.length ∧ (b.drop p).take 16 = bitsMsb [0xAA#8, 0xAA#8]

/-- `p ∈ cand(s)` (R88): `p = s + 8k` with `p + 16 <= N`. -/
def candidate (b : List Bit) (s p : Nat) : Prop := ∃ k, p = s + 8 * k ∧ s + 8 * k + 16 ≤ b.length

/-- No shift 0 to 8 has a matching candidate (R91). -/
def noPreamble (b : List Bit) : Prop := ∀ s p, s ≤ 8 → candidate b s p → ¬ matchAt b p

/-- The numbers of the status codes (R124). -/
def codeNumber : Code → Nat
  | .ok => 0
  | .preambleNotFound => 1
  | .syncHeaderTooShort => 2
  | .parseHeaderTooShort => 3
  | .illegalCmd => 4
  | .lenRange => 5

/-- The numbers of `RECON` (R21). -/
def reconNumber : Recon → Nat
  | .equal => 0
  | .padded => 1
  | .truncated => 2

/-! ## Words for the parser -/

/-- One well-formed UTF-8 sequence, row by row of the table of R111. -/
def utf8Sequence (q : List Byte) : Prop :=
  match q.map BitVec.toNat with
  | [a] => a ≤ 0x7F
  | [a, b] => (0xC2 ≤ a ∧ a ≤ 0xDF) ∧ (0x80 ≤ b ∧ b ≤ 0xBF)
  | [a, b, c] =>
    (0x80 ≤ c ∧ c ≤ 0xBF) ∧
      ((a = 0xE0 ∧ 0xA0 ≤ b ∧ b ≤ 0xBF) ∨ (0xE1 ≤ a ∧ a ≤ 0xEC ∧ 0x80 ≤ b ∧ b ≤ 0xBF) ∨
        (a = 0xED ∧ 0x80 ≤ b ∧ b ≤ 0x9F) ∨ (0xEE ≤ a ∧ a ≤ 0xEF ∧ 0x80 ≤ b ∧ b ≤ 0xBF))
  | [a, b, c, d] =>
    (0x80 ≤ c ∧ c ≤ 0xBF) ∧ (0x80 ≤ d ∧ d ≤ 0xBF) ∧
      ((a = 0xF0 ∧ 0x90 ≤ b ∧ b ≤ 0xBF) ∨ (0xF1 ≤ a ∧ a ≤ 0xF3 ∧ 0x80 ≤ b ∧ b ≤ 0xBF) ∨
        (a = 0xF4 ∧ 0x80 ≤ b ∧ b ≤ 0x8F))
  | _ => False

/-- The ASCII bytes of `0123456789abcdef` (R12, R113). -/
def hexAlphabet : List Byte :=
  [0x30#8, 0x31#8, 0x32#8, 0x33#8, 0x34#8, 0x35#8, 0x36#8, 0x37#8, 0x38#8, 0x39#8, 0x61#8, 0x62#8, 0x63#8, 0x64#8, 0x65#8,
   0x66#8]

/-- `c` is the index of the first `':'` of `t`, at least one byte stands before it, and all of those are ASCII digits
(R114). -/
def idColonAt (t : List Byte) (c : Nat) : Prop :=
  t[c]? = some 0x3A#8 ∧ (∀ j, j < c → t[j]? ≠ some 0x3A#8) ∧ 1 ≤ c ∧
    ∀ j, j < c → ∃ b, t[j]? = some b ∧ 0x30 ≤ b.toNat ∧ b.toNat ≤ 0x39

/-- The marker stands at index `i` of the packet, after the header (R110). -/
def markerAt (M P : List Byte) (i : Nat) : Prop := 6 ≤ i ∧ i + M.length ≤ P.length ∧ (P.drop i).take M.length = M

/-- The inputs a command reads agree in two states (R79): its length register, its `IBUF` bytes, and the parameters. -/
def inputsAgree (i : Instr) (s u : State) : Prop :=
  match i with
  | .clear => True
  | .encode => s.params = u.params ∧ s.inLen = u.inLen ∧ ∀ a, a < s.inLen.toNat → ibufByte s a = ibufByte u a
  | .recover =>
    s.params = u.params ∧ s.inBitlen = u.inBitlen ∧ ∀ a, 8 * a < s.inBitlen.toNat → ibufByte s a = ibufByte u a
  | .parseCmd => s.params = u.params ∧ s.inLen = u.inLen ∧ ∀ a, a < s.inLen.toNat → ibufByte s a = ibufByte u a
  | .parseTlm => s.params = u.params ∧ s.inLen = u.inLen ∧ ∀ a, a < s.inLen.toNat → ibufByte s a = ibufByte u a

/-- The result registers a `PARSE` writes for the fields `f` (R118): `CMD_CODE` and `SEQ_ID` only where `f` has a code, an
id. -/
def parseResults (f : ParsedFields) (r : Results) : Results :=
  { r with
    outLen := BitVec.ofNat 32 f.text.length
    textLen := BitVec.ofNat 32 f.text.length
    streamId := BitVec.ofNat 32 f.streamId.toNat
    seqCtl := BitVec.ofNat 32 f.seqCtl.toNat
    lenField := BitVec.ofNat 32 f.lenField.toNat
    apid := BitVec.ofNat 32 f.apid.toNat
    seqCount := BitVec.ofNat 32 f.seqCount.toNat
    cmdCode := (match f.cmdCode with
      | some v => BitVec.ofNat 32 v.toNat
      | none => r.cmdCode)
    seqId := (match f.id with
      | some n => BitVec.ofNat 32 (n % 2 ^ 32)
      | none => r.seqId)
    pflags := BitVec.ofNat 32
      (f.cmdCode.isSome.toNat + 2 * f.id.isSome.toNat + 4 * f.textHex.toNat + 8 * f.markerFound.toNat
        + 16 * (decide (2 ^ 32 ≤ f.id.getD 0)).toNat) }

/-- The completion of a `PARSE` in a direction, as R118 and R119 give it. -/
def parseCompletes (i : Instr) (dir : Direction) : Prop :=
  ∀ s : State,
    (s.params.ibufBytes < s.inLen.toNat →
      exec i s = .next { s with status := s.status.completed .lenRange }) ∧
    (s.inLen.toNat ≤ s.params.ibufBytes → s.inLen.toNat < 6 →
      exec i s = .next { s with status := s.status.completed .parseHeaderTooShort }) ∧
    (s.inLen.toNat ≤ s.params.ibufBytes → 6 ≤ s.inLen.toNat →
      ∃ f t, parsePacket s.params dir (readIbuf s 0 s.inLen.toNat) = .ok f ∧ exec i s = .next t ∧
        (dir = .cmd → f.markerFound = false) ∧ (dir = .tlm → f.cmdCode = none) ∧
        t.results = parseResults f s.results ∧ t.status = s.status.completed .ok ∧
        s.obufShows t f.text ∧ s.engineFrame t)

end Sys2Proof.Machine

open Sys2Proof Sys2Proof.Machine

/-! ## Encoding of the command word -/

/-- R58, R59: the words written out from the table decode to their commands, and the illegal words of the spec's vectors are
rejected. That they are illegal is R59; the name of the reason each is rejected with is the model's choice (DESIGN CHOICE,
log 16): a word that breaks several fields is named by a reserved bit first, then by its opcode, then by `DIR`. -/
def Obligations.WrittenWordsDecode : Prop :=
  decode 0x00000000#32 = .ok .clear ∧ decode 0x00000001#32 = .ok .encode ∧ decode 0x00000002#32 = .ok .recover ∧
    decode 0x00000003#32 = .ok .parseCmd ∧ decode 0x00000013#32 = .ok .parseTlm ∧
    decode 0x00000005#32 = .error .badOpcode ∧ decode 0x00000010#32 = .error .badDirection ∧
    decode 0x00000012#32 = .error .badDirection ∧ decode 0x80000002#32 = .error .reservedBits ∧
    decode 0x00000023#32 = .error .reservedBits ∧ decode 0xFFFFFFFF#32 = .error .reservedBits

/-- R57, R58, R59: decoding and encoding agree on all 2^32 words: an instruction's word decodes to it, a word that decodes to
an instruction is its word, and the illegal words are those with a reserved bit, `OP` 4 to 15, or `DIR` without `OP = 3`. -/
def Obligations.DecodeAndEncodeAgree : Prop :=
  (∀ i : Instr, i.wf = true → decode (encode i) = .ok i ∧ decodeTableWord 32 (encode i).toNat = some i) ∧
    (∀ (w : Word) (i : Instr), decode w = .ok i → w = encode i) ∧
    ∀ w : Word, (∃ r, decode w = .error r) ↔
      (rsvField w ≠ 0 ∨ 4 ≤ (opField w).toNat ∨ (dirField w = 1 ∧ (opField w).toNat ≠ 3))

/-- R17, R21, R33, R124: where the fields stand in `STATUS`, `SYNC_INFO` and `PFLAGS`, as numbers; all other bits are 0. -/
def Obligations.FlagRegisterLayouts : Prop :=
  (∀ st : Status, (statusWord st).toNat =
    st.done.toNat + 2 * st.busy.toNat + 4 * st.collide.toNat + 256 * codeNumber st.code) ∧
    (∀ (shift : Nat) (r : Recon), shift ≤ 8 → (syncInfoWord shift r).toNat = shift + 16 * reconNumber r) ∧
    ∀ a b c d e : Bool, (pflagsWord a b c d e).toNat =
      a.toNat + 2 * b.toNat + 4 * c.toNat + 8 * d.toNat + 16 * e.toNat

/-! ## The host port -/

/-- R15: register number `k` of the map stands at host address `4k`, and a 32-bit read there, while the block is idle,
answers its value; the values in the map's order are the state's fields. -/
def Obligations.RegisterMapReads : Prop :=
  (∀ (s : State) (k : Nat) (r : Reg) (rest : List HostOp), allRegs[k]? = some r →
    s.hostReady (.read .w32 (BitVec.ofNat 28 (4 * k))) rest → s.status.busy = false →
    step s = .next (s.afterHost rest (.data (.word (readReg r s))))) ∧
  ∀ s : State, (allRegs.map fun r => readReg r s) =
    [s.cmd, statusWord s.status, s.inLen, s.inBitlen, s.results.outLen, s.results.syncInfo, s.results.syncPos,
     s.results.recovLen, s.results.expLen, s.results.actLen, s.results.streamId, s.results.seqCtl, s.results.lenField,
     s.results.apid, s.results.seqCount, s.results.cmdCode, s.results.seqId, s.results.pflags, s.results.textLen,
     BitVec.ofNat 32 s.params.ibufBytes, BitVec.ofNat 32 s.params.obufBytes, BitVec.ofNat 32 s.params.cmdTextOffset,
     BitVec.ofNat 32 s.params.tlmMarker.length]

/-- R42, R43: a read or a write goes on when it is an aligned word access to a mapped register or a byte access inside a
buffer, and is a bus error otherwise; a bus error is a fault of the host. -/
def Obligations.BusErrorExactlyOnIllFormedAccess : Prop :=
  (∀ (s : State) (w : Width) (a : HostAddr) (rest : List HostOp), s.hostReady (.read w a) rest →
    (accessAllowed s.params w a → ∃ t, step s = .next t) ∧
    (¬ accessAllowed s.params w a → step s = .fault .busError)) ∧
  ∀ (s : State) (a : HostAddr) (d : BusData) (rest : List HostOp), s.hostReady (.write a d) rest →
    (accessAllowed s.params (widthOf d) a → ∃ t, step s = .next t) ∧
    (¬ accessAllowed s.params (widthOf d) a → step s = .fault .busError)

/-- R72: an accepted `CMD` write performs the start actions and nothing else in the block. -/
def Obligations.CmdWriteStartsCommand : Prop :=
  ∀ (s : State) (w : Word) (rest : List HostOp),
    s.hostReady (.write (regAddr .cmd) (.word w)) rest → s.status.busy = false →
    step s = .next { s.afterHost rest .ack with
      cmd := w
      status := { done := false, busy := true, collide := false, code := .ok }
      results := Results.zero } ∧
    ∀ r : Reg, r.isResult = true → readReg r { s with results := Results.zero } = 0

/-- R143, with log 10: a `CMD` write while busy is dropped: it starts nothing, leaves `CMD` as it is, is not queued and sets
`COLLIDE`, and `COLLIDE` is still set after the command in flight completes. R143 does not say what the port answers to a
dropped write; that it is an ordinary acknowledgement is the model's choice (DESIGN CHOICE, log 10). -/
def Obligations.BusyCmdWriteIsDropped : Prop :=
  ∀ (s : State) (w : Word) (rest : List HostOp),
    s.hostReady (.write (regAddr .cmd) (.word w)) rest → s.status.busy = true →
    ∃ t, step s = .next t ∧ t = { s.afterHost rest .ack with status := { s.status with collide := true } } ∧
      ∃ u, completionStep t = .next u ∧ u.status.collide = true ∧ u.status.done = true ∧ u.cmd = s.cmd

/-- R141, with log 10: a write to `IN_LEN`, `IN_BITLEN` or a byte of `IBUF` while busy is dropped: it sets `COLLIDE` and changes
neither the register nor the buffer. R141 does not say what the port answers to a dropped write; that it is an ordinary
acknowledgement is the model's choice (DESIGN CHOICE, log 10). -/
def Obligations.BusyInputWriteIsDropped : Prop :=
  ∀ (s : State) (a : HostAddr) (d : BusData) (rest : List HostOp),
    ((∃ v, d = .word v ∧ (a = regAddr .inLen ∨ a = regAddr .inBitlen)) ∨
      (∃ b n, d = .byte b ∧ a.toNat = 0x1000000 + n ∧ n < s.params.ibufBytes)) →
    s.hostReady (.write a d) rest → s.status.busy = true →
    step s = .next { s.afterHost rest .ack with status := { s.status with collide := true } }

/-- R18, R19, R37: a write to `IN_LEN`, `IN_BITLEN` or a byte of `IBUF` while idle stores the value and changes nothing else
in the block. -/
def Obligations.IdleInputWriteIsStored : Prop :=
  (∀ (s : State) (v : Word) (rest : List HostOp), s.hostReady (.write (regAddr .inLen) (.word v)) rest →
    s.status.busy = false → step s = .next { s.afterHost rest .ack with inLen := v }) ∧
  (∀ (s : State) (v : Word) (rest : List HostOp), s.hostReady (.write (regAddr .inBitlen) (.word v)) rest →
    s.status.busy = false → step s = .next { s.afterHost rest .ack with inBitlen := v }) ∧
  ∀ (s : State) (a : HostAddr) (n : Nat) (b : Byte) (rest : List HostOp), a.toNat = 0x1000000 + n →
    n < s.params.ibufBytes → s.hostReady (.write a (.byte b)) rest → s.status.busy = false →
    ∃ t, step s = .next t ∧ (∀ x, ibufByte t x = if x = n then b else ibufByte s x) ∧
      t = { s.afterHost rest .ack with ibuf := t.ibuf }

/-- R44: a write to a read-only register or to a byte of `OBUF`, idle or busy, changes nothing in the block and is no bus
error. -/
def Obligations.ReadOnlyWriteIsIgnored : Prop :=
  ∀ (s : State) (a : HostAddr) (d : BusData) (rest : List HostOp),
    ((∃ r v, d = .word v ∧ a = regAddr r ∧ r.access ≠ .rw) ∨
      (∃ b n, d = .byte b ∧ a.toNat = 0x2000000 + n ∧ n < s.params.obufBytes)) →
    s.hostReady (.write a d) rest →
    step s = .next (s.afterHost rest .ack)

/-- R51, R144: a read of `CMD`, `STATUS`, `IN_LEN`, `IN_BITLEN`, a parameter register or a byte of `IBUF` answers its exact value
at any time, and a read of a result register or of `OBUF` does while the block is idle; no read changes the block. -/
def Obligations.ReadsAnswerExactValues : Prop :=
  (∀ (s : State) (r : Reg) (rest : List HostOp), s.hostReady (.read .w32 (regAddr r)) rest →
    (r.isResult = false ∨ s.status.busy = false) →
    step s = .next (s.afterHost rest (.data (.word (readReg r s))))) ∧
  (∀ (s : State) (a : HostAddr) (n : Nat) (rest : List HostOp), a.toNat = 0x1000000 + n → n < s.params.ibufBytes →
    s.hostReady (.read .w8 a) rest → step s = .next (s.afterHost rest (.data (.byte (ibufByte s n))))) ∧
  ∀ (s : State) (a : HostAddr) (n : Nat) (rest : List HostOp), a.toNat = 0x2000000 + n → n < s.params.obufBytes →
    s.hostReady (.read .w8 a) rest → s.status.busy = false →
    step s = .next (s.afterHost rest (.data (.byte (obufByte s n))))

/-- R142 with log 3: a read of a result register or of a byte of `OBUF` while busy answers a free value and changes nothing in
the block; the next busy read draws another one. -/
def Obligations.BusyReadDrawsAFreeValue : Prop :=
  (∀ (s : State) (r : Reg) (rest : List HostOp), s.hostReady (.read .w32 (regAddr r)) rest → r.isResult = true →
    s.status.busy = true →
    step s = .next { s.afterHost rest (.data (.word (Config.busyWord s.draws))) with draws := s.draws + 1 }) ∧
  ∀ (s : State) (a : HostAddr) (n : Nat) (rest : List HostOp), a.toNat = 0x2000000 + n → n < s.params.obufBytes →
    s.hostReady (.read .w8 a) rest → s.status.busy = true →
    step s = .next { s.afterHost rest (.data (.byte (Config.busyByte s.draws))) with draws := s.draws + 1 }

/-- R70, with log 19 and log 5: `COPYOUT <n>` on an idle block copies `OBUF[0..n)` to `IBUF[0..n)`, one byte read and one byte
write at a time, and changes no other byte, register or flag. That each access is one step, `2n` in all, is the model's choice
(DESIGN CHOICE, log 19). The host has the next `2n` turns, whatever turns follow; or no turns are listed, and then that an
idle block leaves them to the host is the model's choice (DESIGN CHOICE, log 5). -/
def Obligations.CopyOutCopiesTheOutput : Prop :=
  ∀ (s : State) (n : Nat) (rest : List HostOp) (ts : List Turn), s.params.wf = true → s.inReset = false →
    s.status.busy = false → (s.turns = List.replicate (2 * n) .host ++ ts ∨ (s.turns = [] ∧ ts = [])) →
    n ≤ s.params.ibufBytes → s.host = assembleLine (.copyout n) ++ rest →
    ∃ t : State, Host.Core.run Sys2Proof.core (2 * n) s = .next t ∧ t.host = rest ∧
      (∀ a, ibufByte t a = if a < n then obufByte s a else ibufByte s a) ∧
      t = { s with ibuf := t.ibuf, host := rest, turns := ts, port := t.port }

/-- R145, R148, with log 19 and log 5: the host that polls with `WAIT` while a command is in flight sees `BUSY = 1` on any number
of polls, then the command completes, and `WAIT` ends with `DONE = 1` and `BUSY = 0`. That a poll is one step is the model's
choice (DESIGN CHOICE, log 19). After the polls the engine and then the host have the next turns, whatever turns follow; or no
more turns are listed, and then that the busy engine and, once idle, the host move is the model's choice (DESIGN CHOICE,
log 5), where R145 gives only fairness. -/
def Obligations.WaitSeesTheCompletion : Prop :=
  ∀ (s : State) (n : Nat) (rest : List HostOp) (ts : List Turn), s.params.wf = true → s.inReset = false →
    s.status.busy = true → s.host = .wait :: rest →
    (s.turns = List.replicate n .host ++ .engine :: .host :: ts ∨ (s.turns = List.replicate n .host ∧ ts = [])) →
    (∃ u : State, Host.Core.run Sys2Proof.core n s = .next u ∧ u.status.busy = true ∧ u.host = .wait :: rest) ∧
    ∃ t : State, Host.Core.run Sys2Proof.core (n + 2) s = .next t ∧ t.host = rest ∧ t.turns = ts ∧ t.status.done = true ∧
      t.status.busy = false ∧ t.port = .data (.word (statusWord t.status))

/-! ## The command lifecycle -/

/-- R74: the engine's turn on a latched word that decodes to a command is that command's completion step, on the state with
the turn used up; a step is nothing else. -/
def Obligations.StepRunsTheLatchedCommand : Prop :=
  ∀ (s : State) (i : Instr), s.engineTurnReady → decode s.cmd = .ok i → i.wf = true →
    step s = exec i { s with turns := s.turns.tail }

/-- R74: every command completes, whatever the state; it ends with `DONE = 1`, `BUSY = 0`, `COLLIDE` as it was, and writes
neither inputs, parameters, `CMD` nor anything around the block. -/
def Obligations.EveryCommandCompletes : Prop :=
  ∀ (i : Instr) (s : State), ∃ t, exec i s = .next t ∧ t.status = s.status.completed t.status.code ∧ s.engineFrame t

/-- R76: `CLEAR`, written to an idle block and completed, zeroes every result register, leaves `STATUS = 1` whatever `COLLIDE`
and `CODE` were, and changes neither inputs nor buffers. -/
def Obligations.ClearZeroesResults : Prop :=
  encode .clear = 0x00000000#32 ∧
  (∀ s : State, exec .clear s = .next { s with status := s.status.completed .ok }) ∧
  ∀ (s : State) (rest : List HostOp) (ts : List Turn),
    s.hostReady (.write (regAddr .cmd) (.word 0x00000000#32)) rest → s.status.busy = false →
    s.turns = .host :: .engine :: ts →
    ∃ u t, step s = .next u ∧ step u = .next t ∧ readReg .status t = 0x00000001#32 ∧
      t = { s with cmd := 0x00000000#32, status := { done := true, busy := false, collide := false, code := .ok },
                   results := Results.zero, turns := ts, host := rest, port := .ack }

/-- R75: a word that is no command, written to an idle block and completed, ends with `CODE = 4`: all result registers 0,
`OBUF` unchanged, the word readable in `CMD`. -/
def Obligations.IllegalWordCompletes : Prop :=
  ∀ (s : State) (w : Word) (rest : List HostOp) (ts : List Turn),
    w ≠ 0x00000000#32 → w ≠ 0x00000001#32 → w ≠ 0x00000002#32 → w ≠ 0x00000003#32 → w ≠ 0x00000013#32 →
    s.hostReady (.write (regAddr .cmd) (.word w)) rest → s.status.busy = false → s.turns = .host :: .engine :: ts →
    ∃ u t, step s = .next u ∧ step u = .next t ∧ readReg .status t = 0x00000401#32 ∧
      t = { s with cmd := w, status := { done := true, busy := false, collide := false, code := .illegalCmd },
                   results := Results.zero, turns := ts, host := rest, port := .ack }

/-- R78, R100, R120: a command that ends with a nonzero `CODE` writes no byte of `OBUF` and leaves every result register 0, but
that `SYNC_HEADER_TOO_SHORT` reports `SYNC_INFO.SHIFT`, `SYNC_POS` and `RECOV_LEN`. -/
def Obligations.FailureWritesNoOutput : Prop :=
  ∀ (i : Instr) (s t : State), s.results = Results.zero → exec i s = .next t → t.status.code ≠ .ok →
    t.obuf = s.obuf ∧ t.results.outLen = 0 ∧ t.results.textLen = 0 ∧
    (t.status.code ≠ .syncHeaderTooShort → t.results = Results.zero) ∧
    t.results = { Results.zero with
      syncInfo := t.results.syncInfo, syncPos := t.results.syncPos, recovLen := t.results.recovLen } ∧
    t.results.syncInfo.toNat ≤ 8

/-- R125, R126, R127: which code each command ends with, exactly: the range check of the input length first, then for `RECOVER`
no preamble, then fewer than six bytes after the selected one, for `PARSE` fewer than six bytes, else `OK`. -/
def Obligations.OutcomeCodesExactly : Prop :=
  ∀ s : State, s.params.wf = true →
    (∃ t, exec .clear s = .next t ∧ t.status.code = .ok) ∧
    (∃ t, exec .encode s = .next t ∧
      ((t.status.code = .lenRange ∧ s.params.ibufBytes < s.inLen.toNat) ∨
        (t.status.code = .ok ∧ s.inLen.toNat ≤ s.params.ibufBytes))) ∧
    (∃ t, exec .recover s = .next t ∧
      ((t.status.code = .lenRange ∧ 8 * s.params.ibufBytes < s.inBitlen.toNat) ∨
        (s.inBitlen.toNat ≤ 8 * s.params.ibufBytes ∧
          ((t.status.code = .preambleNotFound ∧ noPreamble (inputBits s)) ∨
            ∃ sh p, selectPreamble (inputBits s) = some (sh, p) ∧
              ((t.status.code = .syncHeaderTooShort ∧ (s.inBitlen.toNat - p - 16) / 8 < 6) ∨
                (t.status.code = .ok ∧ 6 ≤ (s.inBitlen.toNat - p - 16) / 8)))))) ∧
    (∃ t, exec .recover s = .next t ∧ (s.inBitlen.toNat < 16 → t.status.code = .preambleNotFound)) ∧
    ∀ i, i = .parseCmd ∨ i = .parseTlm →
      ∃ t, exec i s = .next t ∧
        ((t.status.code = .lenRange ∧ s.params.ibufBytes < s.inLen.toNat) ∨
          (t.status.code = .parseHeaderTooShort ∧ s.inLen.toNat < 6) ∨
          (t.status.code = .ok ∧ 6 ≤ s.inLen.toNat ∧ s.inLen.toNat ≤ s.params.ibufBytes))

/-- R79: a command's outcome is a function of the latched word, its length register, the `IBUF` bytes it reads and the
parameters: two states that agree on these, each with the result registers zeroed by the acceptance, end with the same
code, the same result registers and the same output bytes, whatever else they hold. -/
def Obligations.OutcomeDependsOnInputsOnly : Prop :=
  ∀ (i : Instr) (s u s' u' : State), s.results = Results.zero → u.results = Results.zero → inputsAgree i s u →
    exec i s = .next s' → exec i u = .next u' →
    s'.status.code = u'.status.code ∧ s'.results = u'.results ∧
      ∀ a, a < s'.results.outLen.toNat → obufByte s' a = obufByte u' a

/-! ## The frame encoder -/

/-- R82: the frame is two bytes longer than the payload, begins with `AA AA`, holds the payload after them, and different
payloads give different frames. -/
def Obligations.FrameProperties : Prop :=
  (∀ P : List Byte, (encodeFrame P).length = P.length + 2 ∧ (encodeFrame P)[0]? = some 0xAA#8 ∧
    (encodeFrame P)[1]? = some 0xAA#8 ∧ (∀ i, (encodeFrame P)[i + 2]? = P[i]?) ∧
    (bitsMsb (encodeFrame P)).take 16 =
      [true, false, true, false, true, false, true, false, true, false, true, false, true, false, true, false]) ∧
  ∀ P Q : List Byte, encodeFrame P = encodeFrame Q → P = Q

/-- R81, R83: `ENCODE` writes the preamble and the `IN_LEN` bytes of `IBUF` to `OBUF` and their number to `OUT_LEN`, or fails
with `LEN_RANGE`; nothing else changes. -/
def Obligations.EncodeWritesTheFrame : Prop :=
  encode .encode = 0x00000001#32 ∧
  ∀ s : State,
    (s.inLen.toNat ≤ s.params.ibufBytes →
      ∃ t, exec .encode s = .next t ∧
        t.results = { s.results with outLen := BitVec.ofNat 32 (s.inLen.toNat + 2) } ∧
        (s.params.wf = true → t.results.outLen.toNat = s.inLen.toNat + 2) ∧
        t.status = s.status.completed .ok ∧
        (∀ a, obufByte t a =
          if a < 2 then 0xAA#8 else if a < s.inLen.toNat + 2 then ibufByte s (a - 2) else obufByte s a) ∧
        s.engineFrame t) ∧
    (s.params.ibufBytes < s.inLen.toNat → exec .encode s = .next { s with status := s.status.completed .lenRange })

/-! ## The frame synchronizer -/

/-- R9: `bits_msb` gives each byte's bits 7 to 0; `pack_msb` gives one byte for every eight bits, undoes `bits_msb`, and
discards trailing bits that do not fill a byte. -/
def Obligations.BitsAndBytesConvert : Prop :=
  (∀ b : List Bit, (packMsb b).length = b.length / 8) ∧
  (∀ (B : List Byte) (r : List Bit), r.length < 8 → packMsb (bitsMsb B ++ r) = B) ∧
  ∀ (B : List Byte) (i : Nat), (bitsMsb B)[i]? = (B[i / 8]?).map fun b => b.getLsbD (7 - i % 8)

/-- R46: the bit operand of `RECOVER` has `IN_BITLEN` bits and bit `i` of it is bit `7 - (i mod 8)` of byte `IBUF[i div 8]`. -/
def Obligations.BitStreamOfTheBuffer : Prop :=
  ∀ s : State, (inputBits s).length = s.inBitlen.toNat ∧
    ∀ i, i < s.inBitlen.toNat → (inputBits s)[i]? = some ((ibufByte s (i / 8)).getLsbD (7 - i % 8))

/-- R87, R88, R89: the selected shift is the least in 0 to 8 with any match and the match start its first matching candidate;
there is no selection exactly when no shift matches. -/
def Obligations.LowestShiftFirstMatchIsSelected : Prop :=
  ∀ b : List Bit,
    (∀ s p, selectPreamble b = some (s, p) ↔
      (s ≤ 8 ∧ candidate b s p ∧ matchAt b p ∧
        (∀ p', p' < p → candidate b s p' → ¬ matchAt b p') ∧
        ∀ s' p', s' < s → candidate b s' p' → ¬ matchAt b p')) ∧
    (selectPreamble b = none ↔ noPreamble b)

/-- R98: shift 8 is never selected, and a stream that begins with a frame is selected at shift 0, bit 0, whatever bits
follow. -/
def Obligations.ShiftEightUnusedAndFramesAlign : Prop :=
  (∀ b s p, selectPreamble b = some (s, p) → s ≤ 7) ∧
  ∀ (F : List Byte) (K : List Bit), selectPreamble (bitsMsb (0xAA#8 :: 0xAA#8 :: F) ++ K) = some (0, 0)

/-- R98: a stream whose phase offset of 2 to 8 bits ends in `10` matches 2 bits early, unless a smaller residue class matches
first: the selected shift is at most `|J| - 2`, and at that shift the match start is at most `|J| - 2`. -/
def Obligations.OffsetEndingInOneZeroMatchesEarly : Prop :=
  ∀ (J : List Bit) (F : List Byte) (K : List Bit), J.length ≤ 6 →
    ∃ s p, selectPreamble (J ++ [true, false] ++ bitsMsb (0xAA#8 :: 0xAA#8 :: F) ++ K) = some (s, p) ∧
      s ≤ J.length ∧ (s = J.length → p = J.length)

/-- R92: the recovered bytes are the bits after the preamble packed MSB-first; trailing bits that fill no byte are
discarded. -/
def Obligations.RecoveredBytesAreMsbFirst : Prop :=
  ∀ (b : List Bit) (p : Nat), (recoveredBytes b p).length = (b.length - (p + 16)) / 8 ∧
    ∀ j, j < (recoveredBytes b p).length →
      ((recoveredBytes b p)[j]?.map BitVec.toNat) =
        some (((List.range 8).map fun i => (b.getD (p + 16 + 8 * j + i) false).toNat * 2 ^ (7 - i)).sum)

/-- R91, R93, R94, R95: without a preamble `recover` fails; with fewer than six recovered bytes it fails and reports the
selection; else the packet is the recovered bytes cut or zero-padded to six plus the expected length. -/
def Obligations.PacketIsLengthCorrected : Prop :=
  ∀ b : List Bit,
    (noPreamble b → recoverPacket b = .error .preambleNotFound) ∧
    ∀ sh p, selectPreamble b = some (sh, p) →
      ((recoveredBytes b p).length < 6 →
        recoverPacket b = .error (.headerTooShort
          { shift := sh, pos := p, recovLen := (recoveredBytes b p).length })) ∧
      (6 ≤ (recoveredBytes b p).length →
        ∃ r, recoverPacket b = .ok r ∧ r.info = { shift := sh, pos := p, recovLen := (recoveredBytes b p).length } ∧
          r.expected =
            (256 * (byteAt (recoveredBytes b p) 4).toNat + (byteAt (recoveredBytes b p) 5).toNat + 1) % 65536 ∧
          r.actual = (recoveredBytes b p).length - 6 ∧ r.packet.length = 6 + r.expected ∧ r.packet.length ≤ 65541 ∧
          (∀ i, i < 6 + r.expected → r.packet[i]? = some ((recoveredBytes b p).getD i 0)) ∧
          (r.recon = .padded ↔ r.actual < r.expected) ∧ (r.recon = .truncated ↔ r.expected < r.actual) ∧
          (r.recon = .equal ↔ r.actual = r.expected))

/-- R99: `RECOVER` reports what `recover` answers on the bits of `IBUF`, register by register. -/
def Obligations.RecoverReportsThePacket : Prop :=
  encode .recover = 0x00000002#32 ∧
  ∀ s : State,
    (8 * s.params.ibufBytes < s.inBitlen.toNat → exec .recover s = .next { s with status := s.status.completed .lenRange }) ∧
    (s.inBitlen.toNat ≤ 8 * s.params.ibufBytes →
      (recoverPacket (inputBits s) = .error .preambleNotFound →
        exec .recover s = .next { s with status := s.status.completed .preambleNotFound }) ∧
      (∀ info, recoverPacket (inputBits s) = .error (.headerTooShort info) →
        exec .recover s = .next { s with
          status := s.status.completed .syncHeaderTooShort
          results := { s.results with
            syncInfo := BitVec.ofNat 32 (16 * (s.results.syncInfo.toNat / 16) + info.shift)
            syncPos := BitVec.ofNat 32 info.pos
            recovLen := BitVec.ofNat 32 info.recovLen } }) ∧
      ∀ r, recoverPacket (inputBits s) = .ok r →
        ∃ t, exec .recover s = .next t ∧ t.status = s.status.completed .ok ∧ s.obufShows t r.packet ∧ s.engineFrame t ∧
          t.results = { s.results with
            outLen := BitVec.ofNat 32 (6 + r.expected)
            syncInfo := BitVec.ofNat 32 (r.info.shift + 16 * reconNumber r.recon)
            syncPos := BitVec.ofNat 32 r.info.pos
            recovLen := BitVec.ofNat 32 r.info.recovLen
            expLen := BitVec.ofNat 32 r.expected
            actLen := BitVec.ofNat 32 r.actual
            streamId := BitVec.ofNat 32 (256 * (byteAt r.packet 0).toNat + (byteAt r.packet 1).toNat)
            seqCtl := BitVec.ofNat 32 (256 * (byteAt r.packet 2).toNat + (byteAt r.packet 3).toNat)
            lenField := BitVec.ofNat 32 (256 * (byteAt r.packet 4).toNat + (byteAt r.packet 5).toNat) })

/-- R101: the ranges of the registers after a successful `RECOVER`. -/
def Obligations.RecoverRegisterRanges : Prop :=
  ∀ s t : State, s.params.wf = true → exec .recover s = .next t → t.status.code = .ok →
    t.results.syncInfo.toNat % 16 ≤ 7 ∧
    t.results.syncPos.toNat + 16 + 8 * t.results.recovLen.toNat ≤ t.inBitlen.toNat ∧
    6 ≤ t.results.recovLen.toNat ∧ t.results.actLen.toNat = t.results.recovLen.toNat - 6 ∧
    t.results.expLen.toNat ≤ 65535 ∧ t.results.outLen.toNat = 6 + t.results.expLen.toNat ∧
    (t.results.syncInfo.toNat / 16 = 0 ↔ t.results.actLen = t.results.expLen) ∧
    (t.results.syncInfo.toNat / 16 = 1 ↔ t.results.actLen.toNat < t.results.expLen.toNat) ∧
    (t.results.syncInfo.toNat / 16 = 2 ↔ t.results.expLen.toNat < t.results.actLen.toNat)

/-- R102: a well-formed packet, framed and followed by any bits, is recovered as it was. -/
def Obligations.FramedPacketIsRecovered : Prop :=
  ∀ (P : List Byte) (K : List Bit), 6 ≤ P.length → P.length = 6 + expectedLen (lenFieldOf P) →
    ∃ r, recoverPacket (bitsMsb (encodeFrame P) ++ K) = .ok r ∧ r.packet = P ∧ r.info.shift = 0 ∧ r.info.pos = 0

/-- R47, R102: what `ENCODE` put into `OBUF`, read back as the first bits of a lossless stream by `RECOVER`, gives the packet
that was framed. -/
def Obligations.EncodeThenRecoverIsLossless : Prop :=
  ∀ (s t u : State), s.params.wf = true → s.inLen.toNat ≤ s.params.ibufBytes → 6 ≤ s.inLen.toNat →
    s.inLen.toNat = 6 + expectedLen (lenFieldOf (inputBytes s)) → exec .encode s = .next t →
    u.params = s.params → (∀ a, a < s.inLen.toNat + 2 → ibufByte u a = obufByte t a) →
    8 * (s.inLen.toNat + 2) ≤ u.inBitlen.toNat → u.inBitlen.toNat ≤ 8 * u.params.ibufBytes →
    ∃ v, exec .recover u = .next v ∧ v.status.code = .ok ∧ v.results.outLen = s.inLen ∧
      readObuf v 0 s.inLen.toNat = inputBytes s ∧ v.results.syncPos = 0

/-! ## The packet field parser -/

/-- R104 to R108, R117: `parse` fails exactly on fewer than six bytes, and else gives the big-endian header fields, their low
11 and 14 bits, and the command code. -/
def Obligations.HeaderFieldsAreParsed : Prop :=
  ∀ (p : Params) (dir : Direction) (P : List Byte),
    (P.length < 6 → parsePacket p dir P = .error .headerTooShort) ∧
    (6 ≤ P.length → ∃ f, parsePacket p dir P = .ok f ∧
      f.streamId.toNat = 256 * (byteAt P 0).toNat + (byteAt P 1).toNat ∧
      f.seqCtl.toNat = 256 * (byteAt P 2).toNat + (byteAt P 3).toNat ∧
      f.lenField.toNat = 256 * (byteAt P 4).toNat + (byteAt P 5).toNat ∧
      f.apid.toNat = f.streamId.toNat % 2048 ∧ f.seqCount.toNat = f.seqCtl.toNat % 16384 ∧
      f.cmdCode = (if dir = .cmd ∧ 7 ≤ P.length then some (byteAt P 6) else none) ∧
      f.markerFound = (regionOf p dir P).markerFound ∧ (f.id, f.textHex, f.text) = decodeRegion (regionOf p dir P))

/-- R109: the command-direction region starts at `CMD_TEXT_OFFSET`, is empty when the packet is not longer, and allows an
id. -/
def Obligations.CommandRegionStartsAtTheOffset : Prop :=
  ∀ (p : Params) (P : List Byte),
    (P.length ≤ p.cmdTextOffset → (regionOf p .cmd P).bytes = []) ∧
    (regionOf p .cmd P).bytes.length = P.length - p.cmdTextOffset ∧
    (∀ j, (regionOf p .cmd P).bytes[j]? = P[p.cmdTextOffset + j]?) ∧
    (regionOf p .cmd P).markerFound = false ∧ (regionOf p .cmd P).idAllowed = true

/-- R110: the telemetry-direction region follows the first marker at or after byte 6; without one it is the payload after the
header and allows no id. -/
def Obligations.TelemetryRegionFollowsTheFirstMarker : Prop :=
  ∀ (p : Params) (P : List Byte), 6 ≤ P.length →
    (∀ i, markerAt p.tlmMarker P i → (∀ j, j < i → ¬ markerAt p.tlmMarker P j) →
      regionOf p .tlm P = { bytes := P.drop (i + p.tlmMarker.length), markerFound := true, idAllowed := true }) ∧
    ((∀ i, ¬ markerAt p.tlmMarker P i) →
      regionOf p .tlm P = { bytes := P.drop 6, markerFound := false, idAllowed := false })

/-- R111: the valid byte sequences are exactly the concatenations of the well-formed sequences of the table. -/
def Obligations.Utf8IsConcatenationOfSequences : Prop :=
  ∀ r : List Byte, utf8Ok r = true ↔ ∃ qs : List (List Byte), r = qs.flatten ∧ ∀ q ∈ qs, utf8Sequence q

/-- R112: stripping keeps the bytes up to the least index from which on all bytes are 0; the text of a valid region that
allows no id is its stripped bytes. -/
def Obligations.TrailingNulsAreStripped : Prop :=
  (∀ r : List Byte, ∃ k, k ≤ r.length ∧ stripNul r = r.take k ∧ (∀ j, k ≤ j → j < r.length → r[j]? = some 0x00#8) ∧
    ∀ k', k' < k → ∃ j, k' ≤ j ∧ j < r.length ∧ r[j]? ≠ some 0x00#8) ∧
  ∀ r : Region, utf8Ok r.bytes = true → r.idAllowed = false → decodeRegion r = (none, false, stripNul r.bytes)

/-- R113: the text of an invalid region is its lowercase hex, two digits per byte of the unstripped region, with no id. -/
def Obligations.InvalidRegionBecomesHex : Prop :=
  ∀ r : Region, utf8Ok r.bytes = false →
    ∃ h, decodeRegion r = (none, true, h) ∧ h.length = 2 * r.bytes.length ∧
      ∀ j b, r.bytes[j]? = some b →
        h[2 * j]? = hexAlphabet[b.toNat / 16]? ∧ h[2 * j + 1]? = hexAlphabet[b.toNat % 16]?

/-- R114: the id of a valid region is the number before its first `':'` when that is one or more ASCII digits, the text then
what follows; otherwise there is no id and the text is the whole stripped region. -/
def Obligations.IdIsTheDigitRunBeforeTheColon : Prop :=
  ∀ r : Region, utf8Ok r.bytes = true →
    (r.idAllowed = true → ∀ c, idColonAt (stripNul r.bytes) c →
      decodeRegion r =
        (some (decValue ((stripNul r.bytes).take c)), false, (stripNul r.bytes).drop (c + 1))) ∧
    ((∀ c, ¬ idColonAt (stripNul r.bytes) c) → decodeRegion r = (none, false, stripNul r.bytes)) ∧
    (r.idAllowed = false → decodeRegion r = (none, false, stripNul r.bytes))

/-- R115: the value of a digit run is its base-10 sum, unbounded; `SEQ_ID` holds it modulo 2^32 and `ID_OVF` says whether it is
2^32 or more. -/
def Obligations.IdValueIsDecimal : Prop :=
  (∀ d : List Byte, decValue d =
    ((List.range d.length).map fun j => ((byteAt d j).toNat - 0x30) * 10 ^ (d.length - 1 - j)).sum) ∧
  ∀ (f : ParsedFields) (n : Nat) (s : State), f.id = some n →
    (reportParsed f s).results.seqId.toNat = n % 2 ^ 32 ∧
    (reportParsed f s).results.pflags.getLsbD 4 = decide (2 ^ 32 ≤ n)

/-- R118: `PARSE.CMD` reports the fields of its packet in command direction, or fails. -/
def Obligations.ParseCmdReportsTheFields : Prop := encode .parseCmd = 0x00000003#32 ∧ parseCompletes .parseCmd .cmd

/-- R119: `PARSE.TLM` reports the fields of its packet in telemetry direction, or fails. -/
def Obligations.ParseTlmReportsTheFields : Prop := encode .parseTlm = 0x00000013#32 ∧ parseCompletes .parseTlm .tlm

/-- R122: neither `PARSE` form fails on the output of a successful `RECOVER` given back through `IBUF`. -/
def Obligations.RecoveredPacketAlwaysParses : Prop :=
  ∀ (i : Instr) (s t u : State), i = .parseCmd ∨ i = .parseTlm → s.params.wf = true → exec .recover s = .next t →
    t.status.code = .ok → u.params = s.params → u.inLen = t.results.outLen → u.inLen.toNat ≤ u.params.ibufBytes →
    ∃ v, exec i u = .next v ∧ v.status.code = .ok

/-! ## Reset -/

/-- R137, R139, with log 1 and log 2: the machine after reset, for every configuration: every register 0 but the parameter
registers, the phase idle, reset released, and each buffer byte unspecified. R139 asks for a free value for each byte; its
form, an opaque constant of the reset's number and the offset, and the number 0 of the first reset are the model's choice
(DESIGN CHOICE, log 2). `State.reset` is this state for one configuration; which one is the model's choice (DESIGN CHOICE,
log 1), and the statement does not say it. -/
def Obligations.ResetValues : Prop :=
  ∀ p : Params,
    (∀ r : Reg, readReg r (State.resetFor p) =
      match r with
      | .ibufSize => BitVec.ofNat 32 p.ibufBytes
      | .obufSize => BitVec.ofNat 32 p.obufBytes
      | .cmdTextOfs => BitVec.ofNat 32 p.cmdTextOffset
      | .markerLen => BitVec.ofNat 32 p.tlmMarker.length
      | _ => 0) ∧
    (State.resetFor p).idle = true ∧ (State.resetFor p).params = p ∧
    (∀ a, ibufByte (State.resetFor p) a = Config.resetIbufByte 0 a) ∧
    (∀ a, obufByte (State.resetFor p) a = Config.resetObufByte 0 a) ∧ ∃ q, State.reset = State.resetFor q

/-- R136, R138, with log 2 and log 9: reset asserted at any time, also while a command is in flight, and released again after
any number of turns of host and engine leaves the reset state: no access was answered and no completion happened; the
buffers are drawn anew. -/
def Obligations.ResetAbandonsTheCommand : Prop :=
  ∀ (s : State) (mid ts : List Turn), s.params.wf = true → (∀ t ∈ mid, t = .host ∨ t = .engine) →
    s.turns = .assertReset :: (mid ++ .releaseReset :: ts) →
    Host.Core.run Sys2Proof.core (mid.length + 2) s =
      .next { State.resetFor s.params with
        epoch := s.epoch + 1, draws := s.draws, host := s.host, turns := ts, port := s.port }

/-! ## The whole machine -/

/-- R6: a step never changes the configuration, and a configuration that breaks a constraint is refused. -/
def Obligations.ConfigurationIsConstantOrRefused : Prop :=
  (∀ s t : State, step s = .next t → t.params = s.params ∧ s.params.wf = true) ∧
  (∀ s : State, s.params.wf = false → step s = .refused .badConfiguration) ∧
  ∀ p : Params, p.wf = true ↔
    (8 ≤ p.ibufBytes ∧ p.ibufBytes ≤ 2 ^ 23 ∧ 65541 ≤ p.obufBytes ∧ 2 * p.ibufBytes ≤ p.obufBytes ∧
      p.obufBytes ≤ 2 ^ 24 ∧ 6 ≤ p.cmdTextOffset ∧ p.cmdTextOffset ≤ p.ibufBytes ∧ 1 ≤ p.tlmMarker.length ∧
      p.tlmMarker.length ≤ 255)

/-- R37, R49: a step changes a byte of `IBUF` only as the idle host's write of that byte, or by a reset. -/
def Obligations.InputBufferChangesOnlyByTheHost : Prop :=
  ∀ (s t : State) (n : Nat), step s = .next t → ibufByte t n ≠ ibufByte s n →
    (currentTurn s = .releaseReset ∧ s.inReset = true) ∨
      (currentTurn s = .host ∧ s.inReset = false ∧ s.status.busy = false ∧ n < s.params.ibufBytes ∧
        ∃ a b rest, s.host = .write a (.byte b) :: rest ∧ a.toNat = 0x1000000 + n ∧ ibufByte t n = b)

/-- R38, R49, R78: a step changes a byte of `OBUF` only as the completion of a command that ends with `OK`, inside
`OBUF[0..OUT_LEN)`, or by a reset. -/
def Obligations.OutputBufferChangesOnlyBySuccess : Prop :=
  ∀ (s t : State) (n : Nat), step s = .next t → obufByte t n ≠ obufByte s n →
    (currentTurn s = .releaseReset ∧ s.inReset = true) ∨
      (currentTurn s = .engine ∧ s.inReset = false ∧ s.status.busy = true ∧ t.status.code = .ok ∧
        n < t.results.outLen.toNat ∧ t.results.outLen.toNat ≤ s.params.obufBytes)

/-- R53, R148: while the block is idle and the host does not write `CMD`, a step keeps `STATUS`, the result registers, `CMD` and
every byte of `OBUF`, so a host that polls late misses nothing. -/
def Obligations.ResultsStayUntilTheNextCommand : Prop :=
  ∀ s t : State, step s = .next t → s.status.busy = false → s.inReset = false →
    (∀ w rest, currentTurn s = .host → s.host ≠ .write (regAddr .cmd) (.word w) :: rest) →
    t.status = s.status ∧ t.results = s.results ∧ t.cmd = s.cmd ∧ ∀ a, obufByte t a = obufByte s a

/-- R17, R74, R138: `BUSY` ends only by the engine's completion step, which sets `DONE`, or by a reset, which does not; and it
begins only by the host's write of `CMD`. -/
def Obligations.BusyBeginsAndEndsAsStated : Prop :=
  (∀ s t : State, step s = .next t → s.status.busy = true → t.status.busy = false →
    (currentTurn s = .engine ∧ s.inReset = false ∧ completionStep { s with turns := s.turns.tail } = .next t ∧
      t.status.done = true) ∨
    (currentTurn s = .releaseReset ∧ s.inReset = true ∧ t.status = Status.reset)) ∧
  ∀ s t : State, step s = .next t → s.status.busy = false → t.status.busy = true →
    currentTurn s = .host ∧ s.inReset = false ∧
      ∃ w rest, s.host = .write (regAddr .cmd) (.word w) :: rest ∧ t.cmd = w

/-- R17, R141, R143: `COLLIDE` becomes 1 only by a host write to `CMD`, `IN_LEN`, `IN_BITLEN` or `IBUF` that is dropped while
`BUSY = 1`. -/
def Obligations.CollideMeansADroppedWrite : Prop :=
  ∀ s t : State, step s = .next t → s.status.collide = false → t.status.collide = true →
    s.status.busy = true ∧ currentTurn s = .host ∧ s.inReset = false ∧
      ∃ a d rest, s.host = .write a d :: rest ∧
        ((∃ v, d = .word v ∧ (a = regAddr .cmd ∨ a = regAddr .inLen ∨ a = regAddr .inBitlen)) ∨
          ∃ b n, d = .byte b ∧ a.toNat = 0x1000000 + n ∧ n < s.params.ibufBytes)

/-- The reset state of every configuration the block can be built for has the invariant, and so has `State.reset`, whose
configuration is the model's choice (DESIGN CHOICE, log 1). -/
def Obligations.ResetHasTheInvariant : Prop :=
  (∀ p : Params, p.wf = true → (State.resetFor p).inv = true) ∧ State.reset.inv = true

/-- R6, R17, R20 to R34, R37, R38, R40, R49, R73, R78, R84: every step from a state with the invariant gives a state with it: the
buffers stay in canonical form and inside their sizes, `DONE` and `BUSY` never hold together, the result registers are 0
while busy and keep their unused bits 0, a failure has no output, and an output fits `OBUF`. -/
def Obligations.EveryStepKeepsTheInvariant : Prop :=
  ∀ s t : State, s.inv = true → step s = .next t → t.inv = true
end

