-- ==== Sys2Proof/Laws/State.lean ====
section
/-! SUPPORT. One lemma per field per update of State, each true by `rfl`. -/

namespace Sys2Proof.Machine

/-! `accept` -/

@[simp] theorem accept_params (w : Word) (s : State) : (accept w s).params = s.params := rfl
@[simp] theorem accept_cmd (w : Word) (s : State) : (accept w s).cmd = w := rfl
@[simp] theorem accept_status (w : Word) (s : State) : (accept w s).status = { done := false, busy := true, collide := false, code := .ok } := rfl
@[simp] theorem accept_inLen (w : Word) (s : State) : (accept w s).inLen = s.inLen := rfl
@[simp] theorem accept_inBitlen (w : Word) (s : State) : (accept w s).inBitlen = s.inBitlen := rfl
@[simp] theorem accept_results (w : Word) (s : State) : (accept w s).results = Results.zero := rfl
@[simp] theorem accept_ibuf (w : Word) (s : State) : (accept w s).ibuf = s.ibuf := rfl
@[simp] theorem accept_obuf (w : Word) (s : State) : (accept w s).obuf = s.obuf := rfl
@[simp] theorem accept_inReset (w : Word) (s : State) : (accept w s).inReset = s.inReset := rfl
@[simp] theorem accept_epoch (w : Word) (s : State) : (accept w s).epoch = s.epoch := rfl
@[simp] theorem accept_draws (w : Word) (s : State) : (accept w s).draws = s.draws := rfl
@[simp] theorem accept_host (w : Word) (s : State) : (accept w s).host = s.host := rfl
@[simp] theorem accept_turns (w : Word) (s : State) : (accept w s).turns = s.turns := rfl
@[simp] theorem accept_port (w : Word) (s : State) : (accept w s).port = s.port := rfl

/-! `complete` -/

@[simp] theorem complete_params (c : Code) (s : State) : (complete c s).params = s.params := rfl
@[simp] theorem complete_cmd (c : Code) (s : State) : (complete c s).cmd = s.cmd := rfl
@[simp] theorem complete_status (c : Code) (s : State) : (complete c s).status = { done := true, busy := false, collide := s.status.collide, code := c } := rfl
@[simp] theorem complete_inLen (c : Code) (s : State) : (complete c s).inLen = s.inLen := rfl
@[simp] theorem complete_inBitlen (c : Code) (s : State) : (complete c s).inBitlen = s.inBitlen := rfl
@[simp] theorem complete_results (c : Code) (s : State) : (complete c s).results = s.results := rfl
@[simp] theorem complete_ibuf (c : Code) (s : State) : (complete c s).ibuf = s.ibuf := rfl
@[simp] theorem complete_obuf (c : Code) (s : State) : (complete c s).obuf = s.obuf := rfl
@[simp] theorem complete_inReset (c : Code) (s : State) : (complete c s).inReset = s.inReset := rfl
@[simp] theorem complete_epoch (c : Code) (s : State) : (complete c s).epoch = s.epoch := rfl
@[simp] theorem complete_draws (c : Code) (s : State) : (complete c s).draws = s.draws := rfl
@[simp] theorem complete_host (c : Code) (s : State) : (complete c s).host = s.host := rfl
@[simp] theorem complete_turns (c : Code) (s : State) : (complete c s).turns = s.turns := rfl
@[simp] theorem complete_port (c : Code) (s : State) : (complete c s).port = s.port := rfl

/-! `raise` -/

@[simp] theorem raise_params (c : Code) (s : State) : (raise c s).params = s.params := rfl
@[simp] theorem raise_cmd (c : Code) (s : State) : (raise c s).cmd = s.cmd := rfl
@[simp] theorem raise_status (c : Code) (s : State) : (raise c s).status = { done := true, busy := false, collide := s.status.collide, code := c } := rfl
@[simp] theorem raise_inLen (c : Code) (s : State) : (raise c s).inLen = s.inLen := rfl
@[simp] theorem raise_inBitlen (c : Code) (s : State) : (raise c s).inBitlen = s.inBitlen := rfl
@[simp] theorem raise_results (c : Code) (s : State) : (raise c s).results = s.results := rfl
@[simp] theorem raise_ibuf (c : Code) (s : State) : (raise c s).ibuf = s.ibuf := rfl
@[simp] theorem raise_obuf (c : Code) (s : State) : (raise c s).obuf = s.obuf := rfl
@[simp] theorem raise_inReset (c : Code) (s : State) : (raise c s).inReset = s.inReset := rfl
@[simp] theorem raise_epoch (c : Code) (s : State) : (raise c s).epoch = s.epoch := rfl
@[simp] theorem raise_draws (c : Code) (s : State) : (raise c s).draws = s.draws := rfl
@[simp] theorem raise_host (c : Code) (s : State) : (raise c s).host = s.host := rfl
@[simp] theorem raise_turns (c : Code) (s : State) : (raise c s).turns = s.turns := rfl
@[simp] theorem raise_port (c : Code) (s : State) : (raise c s).port = s.port := rfl

/-! `dropWrite` -/

@[simp] theorem dropWrite_params (s : State) : (dropWrite s).params = s.params := rfl
@[simp] theorem dropWrite_cmd (s : State) : (dropWrite s).cmd = s.cmd := rfl
@[simp] theorem dropWrite_status (s : State) : (dropWrite s).status = { s.status with collide := true } := rfl
@[simp] theorem dropWrite_inLen (s : State) : (dropWrite s).inLen = s.inLen := rfl
@[simp] theorem dropWrite_inBitlen (s : State) : (dropWrite s).inBitlen = s.inBitlen := rfl
@[simp] theorem dropWrite_results (s : State) : (dropWrite s).results = s.results := rfl
@[simp] theorem dropWrite_ibuf (s : State) : (dropWrite s).ibuf = s.ibuf := rfl
@[simp] theorem dropWrite_obuf (s : State) : (dropWrite s).obuf = s.obuf := rfl
@[simp] theorem dropWrite_inReset (s : State) : (dropWrite s).inReset = s.inReset := rfl
@[simp] theorem dropWrite_epoch (s : State) : (dropWrite s).epoch = s.epoch := rfl
@[simp] theorem dropWrite_draws (s : State) : (dropWrite s).draws = s.draws := rfl
@[simp] theorem dropWrite_host (s : State) : (dropWrite s).host = s.host := rfl
@[simp] theorem dropWrite_turns (s : State) : (dropWrite s).turns = s.turns := rfl
@[simp] theorem dropWrite_port (s : State) : (dropWrite s).port = s.port := rfl

/-! `emit` -/

@[simp] theorem emit_params (bs : List Byte) (s : State) : (emit bs s).params = s.params := rfl
@[simp] theorem emit_cmd (bs : List Byte) (s : State) : (emit bs s).cmd = s.cmd := rfl
@[simp] theorem emit_status (bs : List Byte) (s : State) : (emit bs s).status = s.status := rfl
@[simp] theorem emit_inLen (bs : List Byte) (s : State) : (emit bs s).inLen = s.inLen := rfl
@[simp] theorem emit_inBitlen (bs : List Byte) (s : State) : (emit bs s).inBitlen = s.inBitlen := rfl
@[simp] theorem emit_results (bs : List Byte) (s : State) : (emit bs s).results = { s.results with outLen := BitVec.ofNat 32 bs.length } := rfl
@[simp] theorem emit_ibuf (bs : List Byte) (s : State) : (emit bs s).ibuf = s.ibuf := rfl
@[simp] theorem emit_obuf (bs : List Byte) (s : State) : (emit bs s).obuf = Memory.store 0 bs s.obuf := rfl
@[simp] theorem emit_inReset (bs : List Byte) (s : State) : (emit bs s).inReset = s.inReset := rfl
@[simp] theorem emit_epoch (bs : List Byte) (s : State) : (emit bs s).epoch = s.epoch := rfl
@[simp] theorem emit_draws (bs : List Byte) (s : State) : (emit bs s).draws = s.draws := rfl
@[simp] theorem emit_host (bs : List Byte) (s : State) : (emit bs s).host = s.host := rfl
@[simp] theorem emit_turns (bs : List Byte) (s : State) : (emit bs s).turns = s.turns := rfl
@[simp] theorem emit_port (bs : List Byte) (s : State) : (emit bs s).port = s.port := rfl

/-! `writeIbuf` -/

@[simp] theorem writeIbuf_params (a : Nat) (b : Byte) (s : State) : (writeIbuf a b s).params = s.params := rfl
@[simp] theorem writeIbuf_cmd (a : Nat) (b : Byte) (s : State) : (writeIbuf a b s).cmd = s.cmd := rfl
@[simp] theorem writeIbuf_status (a : Nat) (b : Byte) (s : State) : (writeIbuf a b s).status = s.status := rfl
@[simp] theorem writeIbuf_inLen (a : Nat) (b : Byte) (s : State) : (writeIbuf a b s).inLen = s.inLen := rfl
@[simp] theorem writeIbuf_inBitlen (a : Nat) (b : Byte) (s : State) : (writeIbuf a b s).inBitlen = s.inBitlen := rfl
@[simp] theorem writeIbuf_results (a : Nat) (b : Byte) (s : State) : (writeIbuf a b s).results = s.results := rfl
@[simp] theorem writeIbuf_ibuf (a : Nat) (b : Byte) (s : State) : (writeIbuf a b s).ibuf = Memory.store a [b] s.ibuf := rfl
@[simp] theorem writeIbuf_obuf (a : Nat) (b : Byte) (s : State) : (writeIbuf a b s).obuf = s.obuf := rfl
@[simp] theorem writeIbuf_inReset (a : Nat) (b : Byte) (s : State) : (writeIbuf a b s).inReset = s.inReset := rfl
@[simp] theorem writeIbuf_epoch (a : Nat) (b : Byte) (s : State) : (writeIbuf a b s).epoch = s.epoch := rfl
@[simp] theorem writeIbuf_draws (a : Nat) (b : Byte) (s : State) : (writeIbuf a b s).draws = s.draws := rfl
@[simp] theorem writeIbuf_host (a : Nat) (b : Byte) (s : State) : (writeIbuf a b s).host = s.host := rfl
@[simp] theorem writeIbuf_turns (a : Nat) (b : Byte) (s : State) : (writeIbuf a b s).turns = s.turns := rfl
@[simp] theorem writeIbuf_port (a : Nat) (b : Byte) (s : State) : (writeIbuf a b s).port = s.port := rfl

/-! `assertReset` -/

@[simp] theorem assertReset_params (s : State) : (assertReset s).params = s.params := rfl
@[simp] theorem assertReset_cmd (s : State) : (assertReset s).cmd = s.cmd := rfl
@[simp] theorem assertReset_status (s : State) : (assertReset s).status = s.status := rfl
@[simp] theorem assertReset_inLen (s : State) : (assertReset s).inLen = s.inLen := rfl
@[simp] theorem assertReset_inBitlen (s : State) : (assertReset s).inBitlen = s.inBitlen := rfl
@[simp] theorem assertReset_results (s : State) : (assertReset s).results = s.results := rfl
@[simp] theorem assertReset_ibuf (s : State) : (assertReset s).ibuf = s.ibuf := rfl
@[simp] theorem assertReset_obuf (s : State) : (assertReset s).obuf = s.obuf := rfl
@[simp] theorem assertReset_inReset (s : State) : (assertReset s).inReset = true := rfl
@[simp] theorem assertReset_epoch (s : State) : (assertReset s).epoch = s.epoch := rfl
@[simp] theorem assertReset_draws (s : State) : (assertReset s).draws = s.draws := rfl
@[simp] theorem assertReset_host (s : State) : (assertReset s).host = s.host := rfl
@[simp] theorem assertReset_turns (s : State) : (assertReset s).turns = s.turns := rfl
@[simp] theorem assertReset_port (s : State) : (assertReset s).port = s.port := rfl

/-! `takeTurn` -/

@[simp] theorem takeTurn_params (s : State) : (takeTurn s).params = s.params := rfl
@[simp] theorem takeTurn_cmd (s : State) : (takeTurn s).cmd = s.cmd := rfl
@[simp] theorem takeTurn_status (s : State) : (takeTurn s).status = s.status := rfl
@[simp] theorem takeTurn_inLen (s : State) : (takeTurn s).inLen = s.inLen := rfl
@[simp] theorem takeTurn_inBitlen (s : State) : (takeTurn s).inBitlen = s.inBitlen := rfl
@[simp] theorem takeTurn_results (s : State) : (takeTurn s).results = s.results := rfl
@[simp] theorem takeTurn_ibuf (s : State) : (takeTurn s).ibuf = s.ibuf := rfl
@[simp] theorem takeTurn_obuf (s : State) : (takeTurn s).obuf = s.obuf := rfl
@[simp] theorem takeTurn_inReset (s : State) : (takeTurn s).inReset = s.inReset := rfl
@[simp] theorem takeTurn_epoch (s : State) : (takeTurn s).epoch = s.epoch := rfl
@[simp] theorem takeTurn_draws (s : State) : (takeTurn s).draws = s.draws := rfl
@[simp] theorem takeTurn_host (s : State) : (takeTurn s).host = s.host := rfl
@[simp] theorem takeTurn_turns (s : State) : (takeTurn s).turns = s.turns.tail := rfl
@[simp] theorem takeTurn_port (s : State) : (takeTurn s).port = s.port := rfl

/-! `placeCommand` -/

@[simp] theorem placeCommand_params (w : Word) (s : State) : (placeCommand w s).params = s.params := rfl
@[simp] theorem placeCommand_cmd (w : Word) (s : State) : (placeCommand w s).cmd = w := rfl
@[simp] theorem placeCommand_status (w : Word) (s : State) : (placeCommand w s).status = { done := false, busy := true, collide := false, code := .ok } := rfl
@[simp] theorem placeCommand_inLen (w : Word) (s : State) : (placeCommand w s).inLen = s.inLen := rfl
@[simp] theorem placeCommand_inBitlen (w : Word) (s : State) : (placeCommand w s).inBitlen = s.inBitlen := rfl
@[simp] theorem placeCommand_results (w : Word) (s : State) : (placeCommand w s).results = Results.zero := rfl
@[simp] theorem placeCommand_ibuf (w : Word) (s : State) : (placeCommand w s).ibuf = s.ibuf := rfl
@[simp] theorem placeCommand_obuf (w : Word) (s : State) : (placeCommand w s).obuf = s.obuf := rfl
@[simp] theorem placeCommand_inReset (w : Word) (s : State) : (placeCommand w s).inReset = false := rfl
@[simp] theorem placeCommand_epoch (w : Word) (s : State) : (placeCommand w s).epoch = s.epoch := rfl
@[simp] theorem placeCommand_draws (w : Word) (s : State) : (placeCommand w s).draws = s.draws := rfl
@[simp] theorem placeCommand_host (w : Word) (s : State) : (placeCommand w s).host = s.host := rfl
@[simp] theorem placeCommand_turns (w : Word) (s : State) : (placeCommand w s).turns = .engine :: s.turns := rfl
@[simp] theorem placeCommand_port (w : Word) (s : State) : (placeCommand w s).port = s.port := rfl

/-! `reportShortSync` -/

@[simp] theorem reportShortSync_params (i : SyncInfo) (s : State) : (reportShortSync i s).params = s.params := rfl
@[simp] theorem reportShortSync_cmd (i : SyncInfo) (s : State) : (reportShortSync i s).cmd = s.cmd := rfl
@[simp] theorem reportShortSync_status (i : SyncInfo) (s : State) : (reportShortSync i s).status = s.status := rfl
@[simp] theorem reportShortSync_inLen (i : SyncInfo) (s : State) : (reportShortSync i s).inLen = s.inLen := rfl
@[simp] theorem reportShortSync_inBitlen (i : SyncInfo) (s : State) : (reportShortSync i s).inBitlen = s.inBitlen := rfl
@[simp] theorem reportShortSync_ibuf (i : SyncInfo) (s : State) : (reportShortSync i s).ibuf = s.ibuf := rfl
@[simp] theorem reportShortSync_obuf (i : SyncInfo) (s : State) : (reportShortSync i s).obuf = s.obuf := rfl
@[simp] theorem reportShortSync_inReset (i : SyncInfo) (s : State) : (reportShortSync i s).inReset = s.inReset := rfl
@[simp] theorem reportShortSync_epoch (i : SyncInfo) (s : State) : (reportShortSync i s).epoch = s.epoch := rfl
@[simp] theorem reportShortSync_draws (i : SyncInfo) (s : State) : (reportShortSync i s).draws = s.draws := rfl
@[simp] theorem reportShortSync_host (i : SyncInfo) (s : State) : (reportShortSync i s).host = s.host := rfl
@[simp] theorem reportShortSync_turns (i : SyncInfo) (s : State) : (reportShortSync i s).turns = s.turns := rfl
@[simp] theorem reportShortSync_port (i : SyncInfo) (s : State) : (reportShortSync i s).port = s.port := rfl

/-! `reportRecovered` -/

@[simp] theorem reportRecovered_params (r : Recovered) (s : State) : (reportRecovered r s).params = s.params := rfl
@[simp] theorem reportRecovered_cmd (r : Recovered) (s : State) : (reportRecovered r s).cmd = s.cmd := rfl
@[simp] theorem reportRecovered_status (r : Recovered) (s : State) : (reportRecovered r s).status = s.status := rfl
@[simp] theorem reportRecovered_inLen (r : Recovered) (s : State) : (reportRecovered r s).inLen = s.inLen := rfl
@[simp] theorem reportRecovered_inBitlen (r : Recovered) (s : State) : (reportRecovered r s).inBitlen = s.inBitlen := rfl
@[simp] theorem reportRecovered_ibuf (r : Recovered) (s : State) : (reportRecovered r s).ibuf = s.ibuf := rfl
@[simp] theorem reportRecovered_obuf (r : Recovered) (s : State) : (reportRecovered r s).obuf = s.obuf := rfl
@[simp] theorem reportRecovered_inReset (r : Recovered) (s : State) : (reportRecovered r s).inReset = s.inReset := rfl
@[simp] theorem reportRecovered_epoch (r : Recovered) (s : State) : (reportRecovered r s).epoch = s.epoch := rfl
@[simp] theorem reportRecovered_draws (r : Recovered) (s : State) : (reportRecovered r s).draws = s.draws := rfl
@[simp] theorem reportRecovered_host (r : Recovered) (s : State) : (reportRecovered r s).host = s.host := rfl
@[simp] theorem reportRecovered_turns (r : Recovered) (s : State) : (reportRecovered r s).turns = s.turns := rfl
@[simp] theorem reportRecovered_port (r : Recovered) (s : State) : (reportRecovered r s).port = s.port := rfl

/-! `reportParsed` -/

@[simp] theorem reportParsed_params (f : ParsedFields) (s : State) : (reportParsed f s).params = s.params := rfl
@[simp] theorem reportParsed_cmd (f : ParsedFields) (s : State) : (reportParsed f s).cmd = s.cmd := rfl
@[simp] theorem reportParsed_status (f : ParsedFields) (s : State) : (reportParsed f s).status = s.status := rfl
@[simp] theorem reportParsed_inLen (f : ParsedFields) (s : State) : (reportParsed f s).inLen = s.inLen := rfl
@[simp] theorem reportParsed_inBitlen (f : ParsedFields) (s : State) : (reportParsed f s).inBitlen = s.inBitlen := rfl
@[simp] theorem reportParsed_ibuf (f : ParsedFields) (s : State) : (reportParsed f s).ibuf = s.ibuf := rfl
@[simp] theorem reportParsed_obuf (f : ParsedFields) (s : State) : (reportParsed f s).obuf = s.obuf := rfl
@[simp] theorem reportParsed_inReset (f : ParsedFields) (s : State) : (reportParsed f s).inReset = s.inReset := rfl
@[simp] theorem reportParsed_epoch (f : ParsedFields) (s : State) : (reportParsed f s).epoch = s.epoch := rfl
@[simp] theorem reportParsed_draws (f : ParsedFields) (s : State) : (reportParsed f s).draws = s.draws := rfl
@[simp] theorem reportParsed_host (f : ParsedFields) (s : State) : (reportParsed f s).host = s.host := rfl
@[simp] theorem reportParsed_turns (f : ParsedFields) (s : State) : (reportParsed f s).turns = s.turns := rfl
@[simp] theorem reportParsed_port (f : ParsedFields) (s : State) : (reportParsed f s).port = s.port := rfl

/-! The result registers of the reports -/

@[simp] theorem reportShortSync_results_outLen (i : SyncInfo) (s : State) : (reportShortSync i s).results.outLen = s.results.outLen := rfl
@[simp] theorem reportShortSync_results_syncInfo (i : SyncInfo) (s : State) : (reportShortSync i s).results.syncInfo = setShift s.results.syncInfo i.shift := rfl
@[simp] theorem reportShortSync_results_syncPos (i : SyncInfo) (s : State) : (reportShortSync i s).results.syncPos = BitVec.ofNat 32 i.pos := rfl
@[simp] theorem reportShortSync_results_recovLen (i : SyncInfo) (s : State) : (reportShortSync i s).results.recovLen = BitVec.ofNat 32 i.recovLen := rfl
@[simp] theorem reportShortSync_results_expLen (i : SyncInfo) (s : State) : (reportShortSync i s).results.expLen = s.results.expLen := rfl
@[simp] theorem reportShortSync_results_actLen (i : SyncInfo) (s : State) : (reportShortSync i s).results.actLen = s.results.actLen := rfl
@[simp] theorem reportShortSync_results_streamId (i : SyncInfo) (s : State) : (reportShortSync i s).results.streamId = s.results.streamId := rfl
@[simp] theorem reportShortSync_results_seqCtl (i : SyncInfo) (s : State) : (reportShortSync i s).results.seqCtl = s.results.seqCtl := rfl
@[simp] theorem reportShortSync_results_lenField (i : SyncInfo) (s : State) : (reportShortSync i s).results.lenField = s.results.lenField := rfl
@[simp] theorem reportShortSync_results_apid (i : SyncInfo) (s : State) : (reportShortSync i s).results.apid = s.results.apid := rfl
@[simp] theorem reportShortSync_results_seqCount (i : SyncInfo) (s : State) : (reportShortSync i s).results.seqCount = s.results.seqCount := rfl
@[simp] theorem reportShortSync_results_cmdCode (i : SyncInfo) (s : State) : (reportShortSync i s).results.cmdCode = s.results.cmdCode := rfl
@[simp] theorem reportShortSync_results_seqId (i : SyncInfo) (s : State) : (reportShortSync i s).results.seqId = s.results.seqId := rfl
@[simp] theorem reportShortSync_results_pflags (i : SyncInfo) (s : State) : (reportShortSync i s).results.pflags = s.results.pflags := rfl
@[simp] theorem reportShortSync_results_textLen (i : SyncInfo) (s : State) : (reportShortSync i s).results.textLen = s.results.textLen := rfl

@[simp] theorem reportRecovered_results_outLen (r : Recovered) (s : State) : (reportRecovered r s).results.outLen = s.results.outLen := rfl
@[simp] theorem reportRecovered_results_syncInfo (r : Recovered) (s : State) : (reportRecovered r s).results.syncInfo = syncInfoWord r.info.shift r.recon := rfl
@[simp] theorem reportRecovered_results_syncPos (r : Recovered) (s : State) : (reportRecovered r s).results.syncPos = BitVec.ofNat 32 r.info.pos := rfl
@[simp] theorem reportRecovered_results_recovLen (r : Recovered) (s : State) : (reportRecovered r s).results.recovLen = BitVec.ofNat 32 r.info.recovLen := rfl
@[simp] theorem reportRecovered_results_expLen (r : Recovered) (s : State) : (reportRecovered r s).results.expLen = BitVec.ofNat 32 r.expected := rfl
@[simp] theorem reportRecovered_results_actLen (r : Recovered) (s : State) : (reportRecovered r s).results.actLen = BitVec.ofNat 32 r.actual := rfl
@[simp] theorem reportRecovered_results_streamId (r : Recovered) (s : State) : (reportRecovered r s).results.streamId = (streamIdOf r.packet).setWidth 32 := rfl
@[simp] theorem reportRecovered_results_seqCtl (r : Recovered) (s : State) : (reportRecovered r s).results.seqCtl = (seqCtlOf r.packet).setWidth 32 := rfl
@[simp] theorem reportRecovered_results_lenField (r : Recovered) (s : State) : (reportRecovered r s).results.lenField = (lenFieldOf r.packet).setWidth 32 := rfl
@[simp] theorem reportRecovered_results_apid (r : Recovered) (s : State) : (reportRecovered r s).results.apid = s.results.apid := rfl
@[simp] theorem reportRecovered_results_seqCount (r : Recovered) (s : State) : (reportRecovered r s).results.seqCount = s.results.seqCount := rfl
@[simp] theorem reportRecovered_results_cmdCode (r : Recovered) (s : State) : (reportRecovered r s).results.cmdCode = s.results.cmdCode := rfl
@[simp] theorem reportRecovered_results_seqId (r : Recovered) (s : State) : (reportRecovered r s).results.seqId = s.results.seqId := rfl
@[simp] theorem reportRecovered_results_pflags (r : Recovered) (s : State) : (reportRecovered r s).results.pflags = s.results.pflags := rfl
@[simp] theorem reportRecovered_results_textLen (r : Recovered) (s : State) : (reportRecovered r s).results.textLen = s.results.textLen := rfl

@[simp] theorem reportParsed_results_outLen (f : ParsedFields) (s : State) : (reportParsed f s).results.outLen = s.results.outLen := rfl
@[simp] theorem reportParsed_results_syncInfo (f : ParsedFields) (s : State) : (reportParsed f s).results.syncInfo = s.results.syncInfo := rfl
@[simp] theorem reportParsed_results_syncPos (f : ParsedFields) (s : State) : (reportParsed f s).results.syncPos = s.results.syncPos := rfl
@[simp] theorem reportParsed_results_recovLen (f : ParsedFields) (s : State) : (reportParsed f s).results.recovLen = s.results.recovLen := rfl
@[simp] theorem reportParsed_results_expLen (f : ParsedFields) (s : State) : (reportParsed f s).results.expLen = s.results.expLen := rfl
@[simp] theorem reportParsed_results_actLen (f : ParsedFields) (s : State) : (reportParsed f s).results.actLen = s.results.actLen := rfl
@[simp] theorem reportParsed_results_streamId (f : ParsedFields) (s : State) : (reportParsed f s).results.streamId = f.streamId.setWidth 32 := rfl
@[simp] theorem reportParsed_results_seqCtl (f : ParsedFields) (s : State) : (reportParsed f s).results.seqCtl = f.seqCtl.setWidth 32 := rfl
@[simp] theorem reportParsed_results_lenField (f : ParsedFields) (s : State) : (reportParsed f s).results.lenField = f.lenField.setWidth 32 := rfl
@[simp] theorem reportParsed_results_apid (f : ParsedFields) (s : State) : (reportParsed f s).results.apid = f.apid.setWidth 32 := rfl
@[simp] theorem reportParsed_results_seqCount (f : ParsedFields) (s : State) : (reportParsed f s).results.seqCount = f.seqCount.setWidth 32 := rfl
@[simp] theorem reportParsed_results_cmdCode (f : ParsedFields) (s : State) : (reportParsed f s).results.cmdCode = (match f.cmdCode with | some v => v.setWidth 32 | none => s.results.cmdCode) := rfl
@[simp] theorem reportParsed_results_seqId (f : ParsedFields) (s : State) : (reportParsed f s).results.seqId = (match f.id with | some n => BitVec.ofNat 32 n | none => s.results.seqId) := rfl
@[simp] theorem reportParsed_results_pflags (f : ParsedFields) (s : State) : (reportParsed f s).results.pflags = pflagsOf f := rfl
@[simp] theorem reportParsed_results_textLen (f : ParsedFields) (s : State) : (reportParsed f s).results.textLen = BitVec.ofNat 32 f.text.length := rfl

/-! The reset states -/

@[simp] theorem resetFor_params (p : Params) : (State.resetFor p).params = p := rfl
@[simp] theorem resetFor_status (p : Params) : (State.resetFor p).status = Status.reset := rfl
@[simp] theorem resetFor_results (p : Params) : (State.resetFor p).results = Results.zero := rfl
@[simp] theorem resetFor_ibuf (p : Params) : (State.resetFor p).ibuf = [] := rfl
@[simp] theorem resetFor_obuf (p : Params) : (State.resetFor p).obuf = [] := rfl
@[simp] theorem resetFor_inReset (p : Params) : (State.resetFor p).inReset = false := rfl

/-- All that a release of reset can do (R136 to R139). -/
theorem releaseReset_of_asserted (s : State) (h : s.inReset = true) :
    releaseReset s = { State.resetFor s.params with
      epoch := s.epoch + 1, draws := s.draws, host := s.host, turns := s.turns, port := s.port } := by
  simp [releaseReset, h]

/-- Without a reset before it a release does nothing. -/
theorem releaseReset_of_not_asserted (s : State) (h : s.inReset = false) : releaseReset s = s := by
  simp [releaseReset, h]

@[simp] theorem releaseReset_params (s : State) : (releaseReset s).params = s.params := by
  unfold releaseReset; split <;> rfl

/-- `readIbuf` and `ibufByte` depend on `IBUF` and the draw of the reset alone. -/
theorem ibufByte_congr {s t : State} (hm : s.ibuf = t.ibuf) (he : s.epoch = t.epoch) (a : Nat) :
    ibufByte s a = ibufByte t a := by
  simp [ibufByte, hm, he]

/-- `obufByte` depends on `OBUF` and the draw of the reset alone. -/
theorem obufByte_congr {s t : State} (hm : s.obuf = t.obuf) (he : s.epoch = t.epoch) (a : Nat) :
    obufByte s a = obufByte t a := by
  simp [obufByte, hm, he]

end Sys2Proof.Machine
end

