-- ==== Sys2Proof/Laws/Memory.lean ====
section
/-! SUPPORT. The laws of the buffers: what a store leaves to be read, and that every operation keeps the canonical form. -/

namespace Sys2Proof.Machine

/-! ## The canonical form -/

theorem Memory.wf_iff_pairwise (m : Memory) : Memory.wf m = true ↔ m.Pairwise fun c d => c.1 < d.1 := by
  induction m with
  | nil => simp [Memory.wf]
  | cons c m ih =>
    cases m with
    | nil => simp [Memory.wf]
    | cons d m =>
      rw [Memory.wf, Bool.and_eq_true, ih, decide_eq_true_iff, List.pairwise_cons (a := c)]
      constructor
      · rintro ⟨hcd, hp⟩
        refine ⟨fun x hx => ?_, hp⟩
        rcases List.mem_cons.1 hx with rfl | hx
        · exact hcd
        · exact lt_trans hcd (List.rel_of_pairwise_cons hp hx)
      · rintro ⟨hc, hp⟩
        exact ⟨hc d (by simp), hp⟩

theorem Memory.within_iff (n : Nat) (m : Memory) : Memory.within n m = true ↔ ∀ c ∈ m, c.1 < n := by
  simp [Memory.within]

theorem Memory.mem_cellsAt {a : Nat} {bs : List Byte} {c : Host.Cell} (h : c ∈ Memory.cellsAt a bs) :
    a ≤ c.1 ∧ c.1 < a + bs.length := by
  induction bs generalizing a with
  | nil => simp [Memory.cellsAt] at h
  | cons b bs ih =>
    rcases List.mem_cons.1 h with rfl | h
    · simp
    · have := ih h
      simp only [List.length_cons]
      omega

theorem Memory.cellsAt_pairwise (a : Nat) (bs : List Byte) :
    (Memory.cellsAt a bs).Pairwise fun c d => c.1 < d.1 := by
  induction bs generalizing a with
  | nil => simp [Memory.cellsAt]
  | cons b bs ih =>
    rw [Memory.cellsAt, List.pairwise_cons]
    exact ⟨fun c hc => (Memory.mem_cellsAt hc).1, ih (a + 1)⟩

/-- A store keeps the canonical form. -/
theorem Memory.wf_store (a : Nat) (bs : List Byte) {m : Memory} (h : Memory.wf m = true) :
    Memory.wf (Memory.store a bs m) = true := by
  rw [Memory.wf_iff_pairwise] at h ⊢
  unfold Memory.store
  simp only [List.append_assoc, List.pairwise_append, List.mem_filter, List.mem_append, decide_eq_true_eq]
  refine ⟨h.filter _, ⟨Memory.cellsAt_pairwise a bs, h.filter _, ?_⟩, ?_⟩
  · rintro c hc d ⟨-, hd⟩
    have := (Memory.mem_cellsAt hc).2
    omega
  · rintro c ⟨-, hc⟩ d (hd | ⟨-, hd⟩)
    · have := (Memory.mem_cellsAt hd).1
      omega
    · omega

/-- A store inside a buffer writes no byte outside it. -/
theorem Memory.within_store {n a : Nat} {bs : List Byte} {m : Memory} (h : Memory.within n m = true)
    (hb : a + bs.length ≤ n) : Memory.within n (Memory.store a bs m) = true := by
  rw [Memory.within_iff] at h ⊢
  intro c hc
  unfold Memory.store at hc
  simp only [List.mem_append, List.mem_filter] at hc
  rcases hc with (⟨hc, -⟩ | hc) | ⟨hc, -⟩
  · exact h c hc
  · have := (Memory.mem_cellsAt hc).2
    omega
  · exact h c hc

/-! ## Reads after a store -/

theorem Memory.find_append (x : Nat) (m n : Memory) :
    Memory.find x (m ++ n) = (Memory.find x m).or (Memory.find x n) := by
  induction m with
  | nil => simp [Memory.find]
  | cons c m ih =>
    simp only [List.cons_append, Memory.find]
    split <;> simp [ih]

theorem Memory.find_eq_none {x : Nat} {m : Memory} (h : ∀ c ∈ m, c.1 ≠ x) : Memory.find x m = none := by
  induction m with
  | nil => rfl
  | cons c m ih =>
    simp only [Memory.find]
    rw [if_neg (h c (by simp))]
    exact ih fun d hd => h d (by simp [hd])

theorem Memory.find_filter (x : Nat) (p : Nat → Bool) (m : Memory) :
    Memory.find x (m.filter fun c => p c.1) = if p x then Memory.find x m else none := by
  induction m with
  | nil => simp [Memory.find]
  | cons c m ih =>
    rw [List.filter_cons]
    by_cases hc : p c.1 = true
    · rw [if_pos hc]
      simp only [Memory.find, ih]
      by_cases hx : c.1 = x
      · rw [if_pos hx, if_pos hx, if_pos (hx ▸ hc)]
      · rw [if_neg hx, if_neg hx]
    · rw [if_neg hc, ih]
      simp only [Memory.find]
      by_cases hx : c.1 = x
      · rw [if_neg (hx ▸ hc), if_neg (hx ▸ hc)]
      · rw [if_neg hx]

theorem Memory.find_cellsAt (a : Nat) (bs : List Byte) (x : Nat) :
    Memory.find x (Memory.cellsAt a bs) = if a ≤ x then bs[x - a]? else none := by
  induction bs generalizing a with
  | nil => simp [Memory.cellsAt, Memory.find]
  | cons b bs ih =>
    simp only [Memory.cellsAt, Memory.find, ih]
    by_cases hx : a = x
    · subst hx; simp
    · rw [if_neg hx]
      by_cases hle : a ≤ x
      · have h1 : a + 1 ≤ x := by omega
        have h2 : x - a = (x - (a + 1)) + 1 := by omega
        rw [if_pos h1, if_pos hle, h2, List.getElem?_cons_succ]
      · rw [if_neg hle, if_neg (by omega)]

/-- What every offset holds after a store: the bytes stored, and elsewhere what it held. -/
theorem Memory.find_store (a : Nat) (bs : List Byte) (m : Memory) (x : Nat) :
    Memory.find x (Memory.store a bs m) =
      if a ≤ x ∧ x < a + bs.length then bs[x - a]? else Memory.find x m := by
  unfold Memory.store
  rw [Memory.find_append, Memory.find_append, Memory.find_cellsAt,
    Memory.find_filter x (fun n => decide (n < a)) m, Memory.find_filter x (fun n => decide (a + bs.length ≤ n)) m]
  simp only [decide_eq_true_eq]
  by_cases h1 : a ≤ x
  · by_cases h2 : x < a + bs.length
    · have h3 : x - a < bs.length := by omega
      simp [h1, h2, h3, Nat.not_lt.2 h1]
    · have h3 : bs.length ≤ x - a := by omega
      have h4 : a + bs.length ≤ x := by omega
      simp [h1, h4, h3, Nat.not_lt.2 h1]
  · have h4 : ¬ a + bs.length ≤ x := by omega
    have h5 : x < a := by omega
    simp [h1, h4, h5]

/-- In canonical form equal memories are equal data. -/
theorem Memory.ext_of_find {m n : Memory} (hm : Memory.wf m = true) (hn : Memory.wf n = true)
    (h : ∀ a, Memory.find a m = Memory.find a n) : m = n := by
  rw [Memory.wf_iff_pairwise] at hm hn
  induction m generalizing n with
  | nil =>
    cases n with
    | nil => rfl
    | cons d n => have := h d.1; simp [Memory.find] at this
  | cons c m ih =>
    cases n with
    | nil => have := h c.1; simp [Memory.find] at this
    | cons d n =>
      rw [List.pairwise_cons] at hm hn
      have notin : ∀ {k : Host.Cell} {l : Memory} {x : Nat}, (∀ e ∈ l, k.1 < e.1) → x ≤ k.1 → Memory.find x l = none :=
        fun hk hx => Memory.find_eq_none fun e he => by have := hk e he; omega
      have hcd : c.1 = d.1 := by
        rcases Nat.lt_trichotomy c.1 d.1 with hlt | heq | hgt
        · have := h c.1
          simp [Memory.find, Nat.ne_of_gt hlt, notin hn.1 (Nat.le_of_lt hlt)] at this
        · exact heq
        · have := h d.1
          simp [Memory.find, Nat.ne_of_gt hgt, notin hm.1 (Nat.le_of_lt hgt)] at this
      have hv : c.2 = d.2 := by
        have := h c.1
        simpa [Memory.find, hcd] using this
      have ht : m = n := ih hm.2 hn.2 fun a => by
        have := h a
        simp only [Memory.find, ← hcd] at this
        by_cases ha : c.1 = a
        · subst ha
          rw [notin hm.1 (Nat.le_refl _), notin hn.1 (Nat.le_of_eq hcd)]
        · simpa [ha] using this
      rw [ht, Prod.ext hcd hv]

/-! ## The buffers of State -/

/-- Every byte of `OBUF` after an output. -/
theorem obufByte_emit (bs : List Byte) (s : State) (a : Nat) :
    obufByte (emit bs s) a = if h : a < bs.length then bs[a] else obufByte s a := by
  unfold obufByte
  rw [emit_obuf, emit_epoch, Memory.find_store]
  by_cases h : a < bs.length <;> simp [h]

/-- Every byte of `IBUF` after the host wrote one. -/
theorem ibufByte_writeIbuf (a : Nat) (b : Byte) (s : State) (x : Nat) :
    ibufByte (writeIbuf a b s) x = if x = a then b else ibufByte s x := by
  unfold ibufByte
  rw [writeIbuf_ibuf, writeIbuf_epoch, Memory.find_store]
  by_cases h : x = a
  · simp [h]
  · have h' : ¬ (a ≤ x ∧ x < a + [b].length) := by simp only [List.length_singleton]; omega
    rw [if_neg h', if_neg h]

@[simp] theorem length_readIbuf (s : State) (a n : Nat) : (readIbuf s a n).length = n := by simp [readIbuf]

@[simp] theorem length_readObuf (s : State) (a n : Nat) : (readObuf s a n).length = n := by simp [readObuf]

theorem getElem?_readIbuf (s : State) (a n i : Nat) :
    (readIbuf s a n)[i]? = if i < n then some (ibufByte s (a + i)) else none := by
  by_cases h : i < n <;> simp [readIbuf, h]

theorem getElem?_readObuf (s : State) (a n i : Nat) :
    (readObuf s a n)[i]? = if i < n then some (obufByte s (a + i)) else none := by
  by_cases h : i < n <;> simp [readObuf, h]

/-- Equal bytes give equal reads. -/
theorem readIbuf_congr {s t : State} {a n : Nat} (h : ∀ i, a ≤ i → i < a + n → ibufByte s i = ibufByte t i) :
    readIbuf s a n = readIbuf t a n := by
  unfold readIbuf
  refine List.map_congr_left fun i hi => ?_
  rw [List.mem_range'_1] at hi
  exact h i hi.1 hi.2

/-- What was put out is what the host reads back. -/
theorem readObuf_emit (bs : List Byte) (s : State) : readObuf (emit bs s) 0 bs.length = bs := by
  apply List.ext_getElem?
  intro i
  rw [getElem?_readObuf]
  by_cases h : i < bs.length
  · simp [h, obufByte_emit]
  · simp [h]

end Sys2Proof.Machine
end

