-- ==== Sys2Proof/Laws/Bits.lean ====
section
/-! SUPPORT. Small lemmas of the conversions and of the register words: lengths, appends, values as numbers. -/

namespace Sys2Proof.Machine

/-! ## Bits of bytes -/

@[simp] theorem length_byteBits (b : Byte) : (byteBits b).length = 8 := rfl

@[simp] theorem bitsMsb_nil : bitsMsb [] = [] := rfl

@[simp] theorem bitsMsb_cons (b : Byte) (bs : List Byte) : bitsMsb (b :: bs) = byteBits b ++ bitsMsb bs := rfl

theorem bitsMsb_append (bs cs : List Byte) : bitsMsb (bs ++ cs) = bitsMsb bs ++ bitsMsb cs := by
  simp [bitsMsb, List.flatMap_append]

@[simp] theorem length_bitsMsb (bs : List Byte) : (bitsMsb bs).length = 8 * bs.length := by
  induction bs with
  | nil => rfl
  | cons b bs ih => simp [ih]; omega

/-- Bit `i` of a byte's expansion is its bit `7 - i` (R9). -/
theorem getElem?_byteBits (b : Byte) (i : Nat) (h : i < 8) : (byteBits b)[i]? = some (b.getLsbD (7 - i)) := by
  interval_cases i <;> rfl

/-- Packing a byte's own bits gives the byte. -/
theorem byteOfBits_self (b : Byte) :
    byteOfBits (b.getLsbD 7) (b.getLsbD 6) (b.getLsbD 5) (b.getLsbD 4) (b.getLsbD 3) (b.getLsbD 2) (b.getLsbD 1)
      (b.getLsbD 0) = b := by
  revert b; decide

theorem byteOfBits_toNat (b7 b6 b5 b4 b3 b2 b1 b0 : Bit) :
    (byteOfBits b7 b6 b5 b4 b3 b2 b1 b0).toNat =
      128 * b7.toNat + 64 * b6.toNat + 32 * b5.toNat + 16 * b4.toNat + 8 * b3.toNat + 4 * b2.toNat + 2 * b1.toNat
        + b0.toNat := by
  cases b7 <;> cases b6 <;> cases b5 <;> cases b4 <;> cases b3 <;> cases b2 <;> cases b1 <;> cases b0 <;> rfl

@[simp] theorem packMsb_nil : packMsb [] = [] := rfl

/-- Packing goes byte by byte. -/
theorem packMsb_byteBits_append (b : Byte) (l : List Bit) : packMsb (byteBits b ++ l) = b :: packMsb l := by
  show byteOfBits (b.getLsbD 7) _ _ _ _ _ _ _ :: packMsb l = _
  rw [byteOfBits_self]

/-- Fewer than eight bits make no byte (R9). -/
theorem packMsb_of_short {l : List Bit} (h : l.length < 8) : packMsb l = [] := by
  unfold packMsb
  split
  · simp at h
    omega
  · rfl

/-- Eight or more bits: the first byte, and the rest. -/
theorem packMsb_of_long {l : List Bit} (h : 8 ≤ l.length) :
    ∃ b, packMsb l = b :: packMsb (l.drop 8) ∧
      b = byteOfBits (l.getD 0 false) (l.getD 1 false) (l.getD 2 false) (l.getD 3 false) (l.getD 4 false)
        (l.getD 5 false) (l.getD 6 false) (l.getD 7 false) := by
  match l, h with
  | _ :: _ :: _ :: _ :: _ :: _ :: _ :: _ :: rest, _ => exact ⟨_, rfl, rfl⟩

/-! ## Values as numbers -/

/-- `be16(b0, b1) = b0*256 + b1` (R8). -/
theorem be16_toNat (b0 b1 : Byte) : (be16 b0 b1).toNat = 256 * b0.toNat + b1.toNat := by
  have h : (be16 b0 b1).toNat = b0.toNat <<< 8 ||| b1.toNat := BitVec.toNat_append b0 b1
  rw [h, Nat.shiftLeft_eq, Nat.mul_comm, Nat.two_pow_add_eq_or_of_lt b1.isLt]

theorem setShift_toNat (w : Word) (shift : Nat) (h : shift < 16) :
    (setShift w shift).toNat = 16 * (w.toNat / 16) + shift := by
  have e : (setShift w shift).toNat = (w.extractLsb' 4 28).toNat <<< 4 ||| (BitVec.ofNat 4 shift).toNat :=
    BitVec.toNat_append _ _
  have hw := w.isLt
  rw [e, Nat.shiftLeft_eq, Nat.mul_comm, ← Nat.two_pow_add_eq_or_of_lt (BitVec.isLt _), BitVec.extractLsb'_toNat,
    BitVec.toNat_ofNat, Nat.shiftRight_eq_div_pow]
  omega

theorem expectedLen_lt (lf : Half) : expectedLen lf < 65536 := Nat.mod_lt _ (by decide)

/-- A register value below `2^32` reads back as the number it is. -/
theorem toNat_ofNat_of_lt {n : Nat} (h : n < 2 ^ 32) : (BitVec.ofNat 32 n).toNat = n := by
  rw [BitVec.toNat_ofNat]; exact Nat.mod_eq_of_lt h

/-! ## The operands in numbers -/

theorem length_inputBytes (s : State) : (inputBytes s).length = s.inLen.toNat := by simp [inputBytes]

theorem length_inputBits (s : State) : (inputBits s).length = s.inBitlen.toNat := by
  simp only [inputBits, List.length_take, length_bitsMsb, length_readIbuf]
  omega

end Sys2Proof.Machine
end

