-- ==== Sys2Proof/Laws/HostPort.lean ====
section
/-! SUPPORT. The host port: what an address means, and all a host operation can do, said once. -/

namespace Sys2Proof.Machine

/-! ## Addresses in numbers -/

theorem spaceOf_toNat (a : HostAddr) : (spaceOf a).toNat = a.toNat / 2 ^ 24 := by
  have ha := a.isLt
  simp only [spaceOf, BitVec.extractLsb'_toNat, Nat.shiftRight_eq_div_pow]
  omega

/-- `REG` holds the addresses below `2^24`. -/
theorem spaceOf_eq_zero_iff (a : HostAddr) : spaceOf a = 0 ↔ a.toNat < 2 ^ 24 := by
  have := spaceOf_toNat a
  rw [← BitVec.toNat_inj, this]
  simp

/-- `IBUF` holds the addresses from `2^24` on. -/
theorem spaceOf_eq_one_iff (a : HostAddr) : spaceOf a = 1 ↔ 2 ^ 24 ≤ a.toNat ∧ a.toNat < 2 * 2 ^ 24 := by
  have h : (1 : BitVec 4).toNat = 1 := rfl
  have := spaceOf_toNat a
  rw [← BitVec.toNat_inj, this, h]
  omega

/-- `OBUF` holds the addresses from `2 * 2^24` on. -/
theorem spaceOf_eq_two_iff (a : HostAddr) : spaceOf a = 2 ↔ 2 * 2 ^ 24 ≤ a.toNat ∧ a.toNat < 3 * 2 ^ 24 := by
  have h : (2 : BitVec 4).toNat = 2 := rfl
  have := spaceOf_toNat a
  rw [← BitVec.toNat_inj, this, h]
  omega

theorem bufferOffset_eq (a : HostAddr) : bufferOffset a = a.toNat % 2 ^ 24 := by
  simp [bufferOffset, BitVec.extractLsb'_toNat]

theorem extract_8_16_eq_zero_iff (a : HostAddr) :
    a.extractLsb' 8 16 = 0 ↔ a.toNat / 256 % 65536 = 0 := by
  rw [← BitVec.toNat_inj]
  simp [BitVec.extractLsb'_toNat, Nat.shiftRight_eq_div_pow]

theorem regAt_eq_some_iff (o : BitVec 8) (r : Reg) : regAt o = some r ↔ o.toNat = r.offset := by
  constructor
  · intro h
    have := List.find?_some h
    exact (beq_iff_eq.1 this).symm
  · intro h
    have : o = BitVec.ofNat 8 r.offset := by rw [← h]; simp
    rw [this]
    cases r <;> decide

theorem offset_lt (r : Reg) : r.offset < 0x5C := by cases r <;> decide

theorem offset_mod_four (r : Reg) : r.offset % 4 = 0 := by cases r <;> decide

theorem offset_injective {r q : Reg} (h : r.offset = q.offset) : r = q := by
  cases r <;> cases q <;> first | rfl | exact absurd h (by decide)

/-- Every aligned offset up to `0x58` is a register's. -/
theorem exists_reg_of_offset {n : Nat} (h : n ≤ 0x58) (h4 : n % 4 = 0) : ∃ r : Reg, r.offset = n := by
  have key : ∀ k : Fin 23, ∃ r ∈ allRegs, r.offset = 4 * k.val := by decide
  obtain ⟨r, -, hr⟩ := key ⟨n / 4, by omega⟩
  exact ⟨r, by rw [hr]; simp only; omega⟩

theorem regAddr_toNat (r : Reg) : (regAddr r).toNat = r.offset := by cases r <;> rfl

theorem ibufAddr_toNat {a : Nat} (h : a < 2 ^ 24) : (ibufAddr a).toNat = 2 ^ 24 + a := by
  rw [ibufAddr, BitVec.toNat_ofNat]
  omega

theorem obufAddr_toNat {a : Nat} (h : a < 2 ^ 24) : (obufAddr a).toNat = 2 * 2 ^ 24 + a := by
  rw [obufAddr, BitVec.toNat_ofNat]
  omega

/-- All an address can mean (R41 to R43): an aligned word access to a mapped register, a byte access below a buffer's
size. -/
theorem targetOf_eq_some_iff (p : Params) (w : Width) (a : HostAddr) (t : Target) :
    targetOf p w a = some t ↔
      (w = .w32 ∧ ∃ r : Reg, a.toNat = r.offset ∧ t = .reg r) ∨
      (w = .w8 ∧ ∃ n, a.toNat = 2 ^ 24 + n ∧ n < 2 ^ 24 ∧ n < p.ibufBytes ∧ t = .ibuf n) ∨
      (w = .w8 ∧ ∃ n, a.toNat = 2 * 2 ^ 24 + n ∧ n < 2 ^ 24 ∧ n < p.obufBytes ∧ t = .obuf n) := by
  have hreg : ∀ r : Reg, a.extractLsb' 8 16 = 0 → a.toNat < 2 ^ 24 →
      (regAt (a.extractLsb' 0 8) = some r ↔ a.toNat = r.offset) := by
    intro r h8 h0
    rw [extract_8_16_eq_zero_iff] at h8
    rw [regAt_eq_some_iff, BitVec.extractLsb'_toNat, Nat.shiftRight_zero]
    have : a.toNat % 2 ^ 8 = a.toNat := by omega
    rw [this]
  have hoff := fun r => offset_lt r
  unfold targetOf
  simp only [bufferOffset_eq, spaceOf_eq_zero_iff, spaceOf_eq_one_iff, spaceOf_eq_two_iff]
  split_ifs with h0 hw h1 hw h2 hw
  · rw [Option.map_eq_some_iff]
    simp only [hreg _ hw.2 h0]
    constructor
    · rintro ⟨r, hr, rfl⟩
      exact .inl ⟨hw.1, r, hr, rfl⟩
    · rintro (⟨-, r, hr, rfl⟩ | ⟨h, -⟩ | ⟨h, -⟩)
      · exact ⟨r, hr, rfl⟩
      · rw [hw.1] at h; cases h
      · rw [hw.1] at h; cases h
  · refine ⟨fun h => (by cases h), ?_⟩
    rw [extract_8_16_eq_zero_iff] at hw
    rintro (⟨h, r, hr, -⟩ | ⟨-, n, hn, -⟩ | ⟨-, n, hn, -⟩)
    · have := hoff r
      exact absurd ⟨h, by omega⟩ hw
    · omega
    · omega
  · rw [Option.some.injEq]
    constructor
    · rintro rfl
      exact .inr (.inl ⟨hw.1, _, by omega, by omega, hw.2, rfl⟩)
    · rintro (⟨h, -⟩ | ⟨-, n, hn, hlt, -, rfl⟩ | ⟨-, n, hn, hlt, -⟩)
      · rw [hw.1] at h; cases h
      · congr 1; omega
      · omega
  · refine ⟨fun h => (by cases h), ?_⟩
    rintro (⟨-, r, hr, -⟩ | ⟨h, n, hn, hlt, hp, -⟩ | ⟨-, n, hn, hlt, -⟩)
    · have := hoff r
      omega
    · exact absurd ⟨h, by omega⟩ hw
    · omega
  · rw [Option.some.injEq]
    constructor
    · rintro rfl
      exact .inr (.inr ⟨hw.1, _, by omega, by omega, hw.2, rfl⟩)
    · rintro (⟨h, -⟩ | ⟨-, n, hn, hlt, -⟩ | ⟨-, n, hn, hlt, -, rfl⟩)
      · rw [hw.1] at h; cases h
      · omega
      · congr 1; omega
  · refine ⟨fun h => (by cases h), ?_⟩
    rintro (⟨-, r, hr, -⟩ | ⟨-, n, hn, hlt, -⟩ | ⟨h, n, hn, hlt, hp, -⟩)
    · have := hoff r
      omega
    · omega
    · exact absurd ⟨h, by omega⟩ hw
  · refine ⟨fun h => (by cases h), ?_⟩
    rintro (⟨-, r, hr, -⟩ | ⟨-, n, hn, hlt, -⟩ | ⟨-, n, hn, hlt, -⟩)
    · have := hoff r
      omega
    · omega
    · omega

theorem targetOf_regAddr (p : Params) (r : Reg) : targetOf p .w32 (regAddr r) = some (.reg r) := by
  rw [targetOf_eq_some_iff]
  exact .inl ⟨rfl, r, regAddr_toNat r, rfl⟩

theorem targetOf_ibuf {p : Params} {a : HostAddr} {n : Nat} (ha : a.toNat = 2 ^ 24 + n) (hn : n < 2 ^ 24)
    (hp : n < p.ibufBytes) : targetOf p .w8 a = some (.ibuf n) := by
  rw [targetOf_eq_some_iff]
  exact .inr (.inl ⟨rfl, n, ha, hn, hp, rfl⟩)

theorem targetOf_obuf {p : Params} {a : HostAddr} {n : Nat} (ha : a.toNat = 2 * 2 ^ 24 + n) (hn : n < 2 ^ 24)
    (hp : n < p.obufBytes) : targetOf p .w8 a = some (.obuf n) := by
  rw [targetOf_eq_some_iff]
  exact .inr (.inr ⟨rfl, n, ha, hn, hp, rfl⟩)

/-! ## All a port access can do -/

/-- A read changes at most the draw counter (R51, R142). -/
theorem portRead_cases (t : Target) (s : State) :
    (portRead t s).2 = s ∨
      (s.status.busy = true ∧ (portRead t s).2 = { s with draws := s.draws + 1 }) := by
  cases t with
  | reg r =>
    simp only [portRead, portReadReg]
    split
    · next h => exact .inr ⟨h.1, rfl⟩
    · exact .inl rfl
  | ibuf a => exact .inl rfl
  | obuf a =>
    simp only [portRead, portReadObuf]
    split
    · next h => exact .inr ⟨h, rfl⟩
    · exact .inl rfl

/-- A write is ignored, dropped while busy, or, while idle, an accepted command word, a stored length or a stored byte of
`IBUF` (R44, R71, R141, R143). -/
theorem portWrite_cases (t : Target) (d : BusData) (s : State) :
    portWrite t d s = s ∨
      (s.status.busy = true ∧ portWrite t d s = dropWrite s ∧
        ((∃ v, d = .word v ∧ (t = .reg .cmd ∨ t = .reg .inLen ∨ t = .reg .inBitlen)) ∨
          ∃ n b, d = .byte b ∧ t = .ibuf n)) ∨
      (s.status.busy = false ∧
        ((∃ w, t = .reg .cmd ∧ d = .word w ∧ portWrite t d s = accept w s) ∨
          (∃ v, t = .reg .inLen ∧ d = .word v ∧ portWrite t d s = { s with inLen := v }) ∨
          (∃ v, t = .reg .inBitlen ∧ d = .word v ∧ portWrite t d s = { s with inBitlen := v }) ∨
          ∃ n b, t = .ibuf n ∧ d = .byte b ∧ portWrite t d s = writeIbuf n b s)) := by
  cases hb : s.status.busy
  · cases t with
    | reg r =>
      cases d with
      | word v => cases r <;> simp [portWrite, portWriteReg, hb]
      | byte b => simp [portWrite]
      | half h => simp [portWrite]
    | ibuf a => cases d <;> simp [portWrite, portWriteIbuf, hb]
    | obuf a => cases d <;> simp [portWrite]
  · cases t with
    | reg r =>
      cases d with
      | word v => cases r <;> simp [portWrite, portWriteReg, hb]
      | byte b => simp [portWrite]
      | half h => simp [portWrite]
    | ibuf a => cases d <;> simp [portWrite, portWriteIbuf, hb]
    | obuf a => cases d <;> simp [portWrite]

/-- A read of a target that exists. -/
theorem hostAccess_read {w : Width} {a : HostAddr} {rest : List HostOp} {s : State} {g : Target}
    (h : targetOf s.params w a = some g) :
    hostAccess (.read w a) rest s = .next { (portRead g s).2 with port := .data (portRead g s).1, host := rest } := by
  simp [hostAccess, busRead, h]

/-- A write of a target that exists. -/
theorem hostAccess_write {a : HostAddr} {d : BusData} {rest : List HostOp} {s : State} {g : Target}
    (h : targetOf s.params (widthOf d) a = some g) :
    hostAccess (.write a d) rest s = .next { portWrite g d s with port := .ack, host := rest } := by
  simp [hostAccess, busWrite, h]

/-- The read of one byte of `COPYOUT`, of a target that exists: the write of what was read is the next operation. -/
theorem hostAccess_copy {src dst : HostAddr} {rest : List HostOp} {s : State} {g : Target}
    (h : targetOf s.params .w8 src = some g) :
    hostAccess (.copy src dst) rest s =
      .next { (portRead g s).2 with port := .data (portRead g s).1, host := .write dst (portRead g s).1 :: rest } := by
  simp [hostAccess, busRead, h]

/-- A register answers its exact value when it is no result register or the block is idle (R144). -/
theorem portReadReg_exact {r : Reg} {s : State} (h : r.isResult = false ∨ s.status.busy = false) :
    portReadReg r s = (.word (readReg r s), s) := by
  rw [portReadReg, if_neg]
  rcases h with h | h <;> simp [h]

/-- All a host operation can do when it goes on: a read (of `read` or of the first half of `copy`), a write, or a poll. -/
theorem hostAccess_next_cases {op : HostOp} {rest : List HostOp} {s t : State} (h : hostAccess op rest s = .next t) :
    (∃ w a g ans rest', targetOf s.params w a = some g ∧ (op = .read w a ∨ ∃ dst, op = .copy a dst) ∧
        t = { (portRead g s).2 with port := ans, host := rest' }) ∨
      (∃ a d g, op = .write a d ∧ targetOf s.params (widthOf d) a = some g ∧
        t = { portWrite g d s with port := .ack, host := rest }) ∨
      (op = .wait ∧ t = pollStatus rest s) := by
  cases op with
  | read w a =>
    cases hg : targetOf s.params w a with
    | none => simp [hostAccess, busRead, hg] at h
    | some g =>
      simp only [hostAccess, busRead, hg, Option.map_some, Host.Outcome.next.injEq] at h
      exact .inl ⟨w, a, g, _, _, hg, .inl rfl, h.symm⟩
  | write a d =>
    cases hg : targetOf s.params (widthOf d) a with
    | none => simp [hostAccess, busWrite, hg] at h
    | some g =>
      simp only [hostAccess, busWrite, hg, Option.map_some, Host.Outcome.next.injEq] at h
      exact .inr (.inl ⟨a, d, g, rfl, hg, h.symm⟩)
  | copy src dst =>
    cases hg : targetOf s.params .w8 src with
    | none => simp [hostAccess, busRead, hg] at h
    | some g =>
      simp only [hostAccess, busRead, hg, Option.map_some, Host.Outcome.next.injEq] at h
      exact .inl ⟨.w8, src, g, _, _, hg, .inr ⟨dst, rfl⟩, h.symm⟩
  | wait =>
    simp only [hostAccess, Host.Outcome.next.injEq] at h
    exact .inr (.inr ⟨rfl, h.symm⟩)

/-- A turn of the host that goes on: nothing (reset asserted, or no operation left), or its next operation. -/
theorem hostTurn_next_cases {s t : State} (h : hostTurn s = .next t) :
    t = s ∨ (s.inReset = false ∧ ∃ op rest, s.host = op :: rest ∧ hostAccess op rest s = .next t) := by
  unfold hostTurn at h
  split at h
  · exact .inl (by injection h with h; exact h.symm)
  · next hr =>
    split at h
    · exact .inl (by injection h with h; exact h.symm)
    · next op rest hh => exact .inr ⟨by simpa using hr, op, rest, hh, h⟩

end Sys2Proof.Machine
end

