-- ==== Sys2Proof/Laws/PerInstr.lean ====
section
/-! SUPPORT. Families of statements proved once for each command. -/

namespace Sys2Proof.Laws

/-- A command has exactly one row of the command table, that row compares all 32 bits, and its pattern is the command's
encoding (R58, R59). -/
def EncodingExact.Statement (i : Instr) : Prop :=
  opcodeRows.filter (fun r => decide (r.instr = i)) = [⟨i, encode i, 0xFFFFFFFF#32⟩]

theorem EncodingExact.clear : EncodingExact.Statement .clear := by unfold EncodingExact.Statement; decide

theorem EncodingExact.encode : EncodingExact.Statement .encode := by unfold EncodingExact.Statement; decide

theorem EncodingExact.recover : EncodingExact.Statement .recover := by unfold EncodingExact.Statement; decide

theorem EncodingExact.parseCmd : EncodingExact.Statement .parseCmd := by unfold EncodingExact.Statement; decide

theorem EncodingExact.parseTlm : EncodingExact.Statement .parseTlm := by unfold EncodingExact.Statement; decide

end Sys2Proof.Laws
end

