-- ==== Sys2Proof/Laws/Sync.lean ====
section
/-! SUPPORT. Small lemmas of the preamble search and of reconciliation. -/

namespace Sys2Proof.Machine

@[simp] theorem length_preambleBits : preambleBits.length = 16 := rfl

/-- One step of the scan, on any stream: the candidate at `pos`, then the stream eight bits on. -/
theorem scanFrom_step (pos : Nat) (l : List Bit) :
    scanFrom pos l =
      if l.take 16 = preambleBits then some pos
      else if 8 ≤ l.length then scanFrom (pos + 8) (l.drop 8) else none := by
  match l with
  | [] => simp [scanFrom, preambleBits, Config.preamble, byteBits]
  | [_] => simp [scanFrom]
  | [_, _] => simp [scanFrom]
  | [_, _, _] => simp [scanFrom]
  | [_, _, _, _] => simp [scanFrom]
  | [_, _, _, _, _] => simp [scanFrom]
  | [_, _, _, _, _, _] => simp [scanFrom]
  | [_, _, _, _, _, _, _] => simp [scanFrom]
  | b0 :: b1 :: b2 :: b3 :: b4 :: b5 :: b6 :: b7 :: rest =>
    have h8 : 8 ≤ (b0 :: b1 :: b2 :: b3 :: b4 :: b5 :: b6 :: b7 :: rest).length := Nat.le_add_left 8 rest.length
    rw [scanFrom, if_pos h8]
    rfl

/-- A stream shorter than the preamble holds none. -/
theorem take_sixteen_ne_of_short {l : List Bit} (h : l.length < 16) : l.take 16 ≠ preambleBits := by
  intro e
  have := congrArg List.length e
  simp at this
  omega

/-- Reconciliation makes the body exactly as long as expected (R95). -/
theorem length_reconcile (payload : List Byte) (e : Nat) : (reconcile payload e).1.length = e := by
  unfold reconcile
  split
  · simp; omega
  · split
    · simp; omega
    · simp; omega

/-- What reconciliation did (R95). -/
theorem reconcile_recon (payload : List Byte) (e : Nat) :
    (reconcile payload e).2 =
      if payload.length < e then .padded else if e < payload.length then .truncated else .equal := by
  unfold reconcile
  split
  · rfl
  · split <;> rfl

end Sys2Proof.Machine
end

