-- ==== Sys2Proof/Laws/Step.lean ====
section
/-! SUPPORT. All that a command's completion and a step of the machine can do, said once. -/

namespace Sys2Proof.Machine

/-! ## Completion steps -/

/-- What a completion step does: it ends the command with a code, after an optional output and optional reports in the
result registers. The three parts are named, so that a proof never unfolds a command again. -/
inductive CompletedFrom (s : State) : State → Prop
  /-- No output: the command ends with a code and the result registers are as they were. -/
  | plain (c : Code) : CompletedFrom s (complete c s)
  /-- `SYNC_HEADER_TOO_SHORT`: the three registers of R99. -/
  | shortSync (info : SyncInfo) : recoverPacket (inputBits s) = .error (.headerTooShort info) → bitLenOk s = true →
      CompletedFrom s (complete .syncHeaderTooShort (reportShortSync info s))
  /-- `ENCODE` (R83). -/
  | frame : byteLenOk s = true → CompletedFrom s (complete .ok (emit (encodeFrame (inputBytes s)) s))
  /-- `RECOVER` (R99). -/
  | recovered (r : Recovered) : recoverPacket (inputBits s) = .ok r → bitLenOk s = true →
      CompletedFrom s (complete .ok (reportRecovered r (emit r.packet s)))
  /-- `PARSE` (R118, R119). -/
  | parsed (dir : Direction) (f : ParsedFields) : parsePacket s.params dir (inputBytes s) = .ok f → byteLenOk s = true →
      CompletedFrom s (complete .ok (reportParsed f (emit f.text s)))

theorem parseCommand_completes (dir : Direction) (s : State) :
    ∃ t, parseCommand dir s = .next t ∧ CompletedFrom s t := by
  unfold parseCommand
  split
  · next h =>
    cases hp : parsePacket s.params dir (inputBytes s) with
    | error e => cases e; exact ⟨_, rfl, .plain .parseHeaderTooShort⟩
    | ok f => exact ⟨_, rfl, .parsed dir f hp h⟩
  · exact ⟨_, rfl, .plain .lenRange⟩

/-- Every command goes on, and this is all its completion step can do. -/
theorem exec_completes (i : Instr) (s : State) : ∃ t, exec i s = .next t ∧ CompletedFrom s t := by
  cases i with
  | clear => exact ⟨_, rfl, .plain .ok⟩
  | encode =>
    show ∃ t, execEncode s = .next t ∧ _
    unfold execEncode
    split
    · next h => exact ⟨_, rfl, .frame h⟩
    · exact ⟨_, rfl, .plain .lenRange⟩
  | recover =>
    show ∃ t, execRecover s = .next t ∧ _
    unfold execRecover
    split
    · next h =>
      cases hp : recoverPacket (inputBits s) with
      | error e =>
        cases e with
        | preambleNotFound => exact ⟨_, rfl, .plain .preambleNotFound⟩
        | headerTooShort info => exact ⟨_, rfl, .shortSync info hp h⟩
      | ok r => exact ⟨_, rfl, .recovered r hp h⟩
    · exact ⟨_, rfl, .plain .lenRange⟩
  | parseCmd => exact parseCommand_completes .cmd s
  | parseTlm => exact parseCommand_completes .tlm s

/-- The latched word always completes, legal or not (R74, R75). -/
theorem completionStep_completes (s : State) : ∃ t, completionStep s = .next t ∧ CompletedFrom s t := by
  unfold completionStep
  split
  · exact exec_completes _ s
  · exact ⟨_, rfl, .plain .illegalCmd⟩

/-! ## A step -/

/-- All a step can do when it goes on: the configuration is well formed, and the agent whose turn it is moved. -/
theorem step_next_cases {s t : State} (h : step s = .next t) :
    s.params.wf = true ∧
      ((currentTurn s = .host ∧ hostTurn (takeTurn s) = .next t) ∨
        (currentTurn s = .engine ∧ engineTurn (takeTurn s) = .next t) ∨
        (currentTurn s = .assertReset ∧ t = assertReset (takeTurn s)) ∨
        (currentTurn s = .releaseReset ∧ t = releaseReset (takeTurn s))) := by
  unfold step machineStep at h
  split at h
  · next hw =>
    refine ⟨hw, ?_⟩
    cases hc : currentTurn s <;> simp only [hc, agentStep] at h
    · exact .inl ⟨rfl, h⟩
    · exact .inr (.inl ⟨rfl, h⟩)
    · exact .inr (.inr (.inl ⟨rfl, by injection h with h; exact h.symm⟩))
    · exact .inr (.inr (.inr ⟨rfl, by injection h with h; exact h.symm⟩))
  · cases h

/-- A turn of the engine that goes on: nothing, or the completion step of the command in flight. -/
theorem engineTurn_next_cases {s t : State} (h : engineTurn s = .next t) :
    t = s ∨ (s.status.busy = true ∧ s.inReset = false ∧ completionStep s = .next t) := by
  unfold engineTurn at h
  split at h
  · next hb => exact .inr ⟨hb.1, by simpa using hb.2, h⟩
  · exact .inl (by injection h with h; exact h.symm)

/-- A step of the host on a well-formed configuration. -/
theorem step_of_host {s : State} (hw : s.params.wf = true) (hc : currentTurn s = .host) :
    step s = hostTurn (takeTurn s) := by
  simp [step, machineStep, hw, hc, agentStep]

/-- A step of the engine on a well-formed configuration. -/
theorem step_of_engine {s : State} (hw : s.params.wf = true) (hc : currentTurn s = .engine) :
    step s = engineTurn (takeTurn s) := by
  simp [step, machineStep, hw, hc, agentStep]

/-- A step of the platform on a well-formed configuration. -/
theorem step_of_assertReset {s : State} (hw : s.params.wf = true) (hc : currentTurn s = .assertReset) :
    step s = .next (assertReset (takeTurn s)) := by
  simp [step, machineStep, hw, hc, agentStep]

theorem step_of_releaseReset {s : State} (hw : s.params.wf = true) (hc : currentTurn s = .releaseReset) :
    step s = .next (releaseReset (takeTurn s)) := by
  simp [step, machineStep, hw, hc, agentStep]

/-- One step of a run that goes on. -/
theorem run_succ_of_next {s t : State} (n : Nat) (h : step s = .next t) :
    Host.Core.run Sys2Proof.core (n + 1) s = Host.Core.run Sys2Proof.core n t := by
  have hs : Sys2Proof.core.step s = .next t := h
  simp only [Host.Core.run, hs]

end Sys2Proof.Machine
end

