-- ==== Sys2Proof/Tests/Slice0.lean ====
section
/-! SUPPORT. The model's own tests. Expected values come from the spec's vectors (`spec/95_test_vectors.md`), named in each
comment. Then, for every statement with hypotheses, a concrete state and operands that meet them. -/

namespace Sys2Proof.Tests

open Sys2Proof Sys2Proof.Machine

/-! ## Helpers -/

/-- The idle block after reset with `IBUF` and the two length registers written. -/
def loaded (bs : List Byte) (byteLen bitLen : Word) : State :=
  { State.reset with ibuf := Memory.cellsAt 0 bs, inLen := byteLen, inBitlen := bitLen }

/-- A command accepted, its completion step next. -/
def inFlight (i : Instr) (s : State) : State := { accept (encode i) s with turns := [.engine] }

/-- The host has one operation to do and the turn. -/
def hostDoes (op : HostOp) (s : State) : State := { s with host := [op], turns := [.host] }

/-- The outcome is a next state with a property. -/
def answers (o : Host.Outcome State Fault Refusal) (P : State → Bool) : Bool :=
  match o with
  | .next t => P t
  | .fault _ => false
  | .refused _ => false

theorem next_with {o : Host.Outcome State Fault Refusal} {H : State → Prop} [DecidablePred H]
    (h : answers o (fun t => decide (H t)) = true) : ∃ t, o = .next t ∧ H t := by
  cases o with
  | next t => exact ⟨t, rfl, of_decide_eq_true h⟩
  | fault f => cases h
  | refused f => cases h

/-- The registers of a state, read by name. -/
def regs (s : State) (rs : List Reg) : List Nat := rs.map fun r => (readReg r s).toNat

/-- The packet of the example of R83 and R99. -/
def packet1 : List Byte := [0x08#8, 0x01#8, 0xC0#8, 0x05#8, 0x00#8, 0x00#8, 0x2A#8]

/-- The frame of `packet1`. -/
def frame1 : List Byte := [0xAA#8, 0xAA#8, 0x08#8, 0x01#8, 0xC0#8, 0x05#8, 0x00#8, 0x00#8, 0x2A#8]

/-! ## Configurations: each check of R6 refuses an ill-formed one -/

theorem test_wf_vector : Config.vectorParams.wf = true := by decide

theorem test_wf_bounds :
    ({ ibufBytes := 8, obufBytes := 65541, cmdTextOffset := 6, tlmMarker := [0x3E#8] } : Params).wf = true := by decide

theorem test_wf_ibuf_small :
    ({ Config.vectorParams with ibufBytes := 7, cmdTextOffset := 6 } : Params).ibufSizeOk = false := by decide

theorem test_wf_ibuf_large :
    ({ Config.vectorParams with ibufBytes := 2 ^ 23 + 1, obufBytes := 2 ^ 24 } : Params).ibufSizeOk = false := by decide

theorem test_wf_obuf_below_packet : ({ Config.vectorParams with obufBytes := 65540 } : Params).obufSizeOk = false := by decide

theorem test_wf_obuf_below_hex :
    ({ Config.vectorParams with ibufBytes := 40000, obufBytes := 79999 } : Params).obufSizeOk = false := by decide

theorem test_wf_obuf_large : ({ Config.vectorParams with obufBytes := 2 ^ 24 + 1 } : Params).obufSizeOk = false := by decide

theorem test_wf_offset_in_header : ({ Config.vectorParams with cmdTextOffset := 5 } : Params).textOffsetOk = false := by decide

theorem test_wf_offset_past_ibuf :
    ({ Config.vectorParams with cmdTextOffset := 4097 } : Params).textOffsetOk = false := by decide

theorem test_wf_marker_empty : ({ Config.vectorParams with tlmMarker := [] } : Params).markerOk = false := by decide

theorem test_wf_marker_long :
    ({ Config.vectorParams with tlmMarker := List.replicate 256 0x41#8 } : Params).markerOk = false := by
  simp only [Params.markerOk, List.length_replicate]
  decide

/-- A configuration that fails one check is refused by the step. -/
theorem test_bad_configuration_refused :
    (match step (State.resetFor { Config.vectorParams with cmdTextOffset := 5 }) with
      | .refused .badConfiguration => true
      | _ => false) = true := by decide

/-! ## Decoding: words written out from R57 and R58 (`RSV` 27 bits, `DIR`, `OP`) -/

theorem test_decode_clear : decode (0b000000000000000000000000000_0_0000#32) = .ok .clear := by decide

theorem test_decode_encode : decode (0b000000000000000000000000000_0_0001#32) = .ok .encode := by decide

theorem test_decode_recover : decode (0b000000000000000000000000000_0_0010#32) = .ok .recover := by decide

theorem test_decode_parse_cmd : decode (0b000000000000000000000000000_0_0011#32) = .ok .parseCmd := by decide

theorem test_decode_parse_tlm : decode (0b000000000000000000000000000_1_0011#32) = .ok .parseTlm := by decide

/-- LC-3 to LC-8: illegal words. -/
theorem test_decode_illegal :
    decode 0x00000005#32 = .error .badOpcode ∧ decode 0x00000010#32 = .error .badDirection ∧
      decode 0x00000012#32 = .error .badDirection ∧ decode 0x00000004#32 = .error .badOpcode ∧
      decode 0x80000002#32 = .error .reservedBits ∧ decode 0xFFFFFFFF#32 = .error .reservedBits := by decide

theorem test_decode_table_word : decodeTableWord 32 0x13 = some .parseTlm ∧ decodeTableWord 32 0x23 = none := by decide

/-- The placed word runs as the first instruction after reset. -/
theorem test_fetch_runs : answers (step (State.reset.withFetchWord 32 0x0)) (fun t => t.status.done && !t.status.busy) = true := by
  decide

/-! ## One step of each command -/

/-- LC-2. -/
theorem test_clear : answers (step (inFlight .clear State.reset)) (fun t => regs t [.status, .cmd] == [1, 0]) = true := by decide

/-- LC-14: after a `RECOVER` with an output, `CLEAR` keeps `OBUF`. -/
theorem test_clear_keeps_obuf :
    answers (step (inFlight .clear { State.reset with
      obuf := Memory.cellsAt 0 packet1, results := { Results.zero with outLen := 7 } }))
      (fun t => regs t [.status, .outLen] == [1, 0] && readObuf t 0 7 == packet1) = true := by decide

/-- ENC-2. -/
theorem test_encode :
    answers (step (inFlight .encode (loaded packet1 7 0)))
      (fun t => regs t [.status, .outLen] == [1, 9] && readObuf t 0 9 == frame1) = true := by decide

/-- ENC-7. -/
theorem test_encode_len_range :
    answers (step (inFlight .encode (loaded packet1 4097 0)))
      (fun t => regs t [.status, .outLen] == [0x501, 0] && t.obuf == []) = true := by decide

/-- SYNC-2: shift 3. -/
theorem test_recover_shift_three :
    answers (step (inFlight .recover
      (loaded [0x75#8, 0x55#8, 0x41#8, 0x00#8, 0x38#8, 0x00#8, 0xA0#8, 0x00#8, 0x05#8, 0x40#8] 0 75)))
      (fun t => regs t [.status, .outLen, .syncInfo, .syncPos, .recovLen, .expLen, .actLen, .streamId, .seqCtl, .lenField]
          == [1, 7, 3, 3, 7, 1, 1, 0x0801, 0xC005, 0] && readObuf t 0 7 == packet1) = true := by decide

/-- SYNC-6: header too short. -/
theorem test_recover_header_too_short :
    answers (step (inFlight .recover (loaded [0xAA#8, 0xAA#8, 0x08#8, 0x01#8, 0xC0#8, 0x05#8, 0x00#8, 0xFE#8] 0 63)))
      (fun t => regs t [.status, .outLen, .syncInfo, .syncPos, .recovLen] == [0x201, 0, 0, 0, 5]) = true := by decide

/-- PAR-1. -/
theorem test_parse_cmd :
    answers (step (inFlight .parseCmd
      (loaded [0x18#8, 0x01#8, 0xC0#8, 0x2A#8, 0x00#8, 0x05#8, 0x07#8, 0x00#8, 0x37#8, 0x3A#8, 0x68#8, 0x69#8] 12 0)))
      (fun t => regs t [.status, .streamId, .seqCtl, .lenField, .apid, .seqCount, .cmdCode, .seqId, .pflags, .textLen, .outLen]
          == [1, 0x1801, 0xC02A, 5, 1, 0x2A, 7, 7, 3, 2, 2] && readObuf t 0 2 == [0x68#8, 0x69#8]) = true := by decide

/-- PAR-10: the id `2^32` wraps and sets `ID_OVF`. -/
theorem test_parse_cmd_id_overflow :
    answers (step (inFlight .parseCmd
      (loaded [0x18#8, 0x01#8, 0xC0#8, 0x06#8, 0x00#8, 0x0C#8, 0x06#8, 0x00#8, 0x34#8, 0x32#8, 0x39#8, 0x34#8, 0x39#8,
        0x36#8, 0x37#8, 0x32#8, 0x39#8, 0x36#8, 0x3A#8, 0x7A#8] 20 0)))
      (fun t => regs t [.status, .seqId, .pflags, .textLen] == [1, 0, 0x13, 1] && readObuf t 0 1 == [0x7A#8]) = true := by
  decide

/-- PAR-2: marker, id, NUL stripped. -/
theorem test_parse_tlm :
    answers (step (inFlight .parseTlm
      (loaded [0x08#8, 0x05#8, 0x00#8, 0x03#8, 0x00#8, 0x07#8, 0x54#8, 0x3E#8, 0x31#8, 0x32#8, 0x3A#8, 0x6F#8, 0x6B#8,
        0x00#8] 14 0)))
      (fun t => regs t [.status, .streamId, .seqCtl, .lenField, .apid, .seqCount, .cmdCode, .seqId, .pflags, .textLen]
          == [1, 0x0805, 3, 7, 5, 3, 0, 12, 0x0A, 2] && readObuf t 0 2 == [0x6F#8, 0x6B#8]) = true := by decide

/-- PAR-14: overlong UTF-8 becomes hex. -/
theorem test_parse_tlm_hex :
    answers (step (inFlight .parseTlm
      (loaded [0x08#8, 0x05#8, 0x00#8, 0x07#8, 0x00#8, 0x03#8, 0x54#8, 0x3E#8, 0xC0#8, 0xAF#8] 10 0)))
      (fun t => regs t [.status, .seqId, .pflags, .textLen] == [1, 0, 0x0C, 4]
          && readObuf t 0 4 == [0x63#8, 0x30#8, 0x61#8, 0x66#8]) = true := by decide

/-! ## Host accesses -/

/-- LC-15: a byte write while `ENCODE` is in flight is dropped and sets `COLLIDE`. -/
theorem test_busy_byte_write_dropped :
    answers (step (hostDoes (.write 0x1000000#28 (.byte 0xFF#8)) (inFlight .encode (loaded packet1 7 0))))
      (fun t => t.status.collide && ibufByte t 0 == 0x08#8) = true := by decide

/-- LC-17: a `CMD` write while `ENCODE` is in flight is dropped. -/
theorem test_busy_cmd_write_dropped :
    answers (step (hostDoes (.write 0x0000000#28 (.word 0x00000002#32)) (inFlight .encode (loaded packet1 7 0))))
      (fun t => t.status.collide && t.status.busy && t.cmd == 0x00000001#32) = true := by decide

/-- LC-20: a 16-bit read at address 4 is a bus error. -/
theorem test_bus_error :
    (match step (hostDoes (.read .w16 0x0000004#28) State.reset) with
      | .fault .busError => true
      | _ => false) = true := by decide

/-! ## Witnesses: states and operands that meet the hypotheses of the statements, at the boundaries of their ranges -/

/-- The next step of a busy host. -/
def busyHost (op : HostOp) : State := hostDoes op (inFlight .encode (loaded packet1 7 0))

/-- A packet that is well formed: seven bytes, length field 0. -/
theorem witness_packet1 : 6 ≤ packet1.length ∧ packet1.length = 6 + expectedLen (lenFieldOf packet1) := by decide

theorem witness_DecodeAndEncodeAgree :
    Instr.parseTlm.wf = true ∧ decode 0x13#32 = .ok .parseTlm ∧ rsvField 0x20#32 ≠ 0 ∧ 4 ≤ (opField 0x4#32).toNat ∧
      (dirField 0x12#32 = 1 ∧ (opField 0x12#32).toNat ≠ 3) := by decide

theorem witness_FlagRegisterLayouts : 8 ≤ 8 ∧ (syncInfoWord 8 .truncated).toNat = 40 := by decide

theorem witness_RegisterMapReads_first :
    allRegs[0]? = some .cmd ∧ (hostDoes (.read .w32 (BitVec.ofNat 28 (4 * 0))) State.reset).hostReady (.read .w32 0#28) [] ∧
      State.reset.status.busy = false := by
  unfold State.hostReady; decide

theorem witness_RegisterMapReads_last :
    allRegs[22]? = some .markerLen ∧
      (hostDoes (.read .w32 (BitVec.ofNat 28 (4 * 22))) State.reset).hostReady (.read .w32 0x58#28) [] ∧
      State.reset.status.busy = false := by
  unfold State.hostReady; decide

/-- Reads on both sides of each boundary of R42 and R43. -/
theorem witness_BusError_reads :
    (∀ a : HostAddr, (hostDoes (.read .w32 a) State.reset).hostReady (.read .w32 a) []) ∧
      accessAllowed Config.vectorParams .w32 0x58#28 ∧ ¬ accessAllowed Config.vectorParams .w32 0x5C#28 ∧
      ¬ accessAllowed Config.vectorParams .w32 0x6#28 ∧ ¬ accessAllowed Config.vectorParams .w8 0x0#28 ∧
      accessAllowed Config.vectorParams .w8 0x1000FFF#28 ∧ ¬ accessAllowed Config.vectorParams .w8 0x1001000#28 ∧
      accessAllowed Config.vectorParams .w8 0x2010FFF#28 ∧ ¬ accessAllowed Config.vectorParams .w8 0x2011000#28 ∧
      ¬ accessAllowed Config.vectorParams .w8 0x3000000#28 := by
  have hw : Config.vectorParams.wf = true := by decide
  refine ⟨fun a => ⟨hw, rfl, rfl, rfl⟩, ?_⟩
  unfold accessAllowed
  refine ⟨?_, ?_, ?_, ?_, ?_, ?_, ?_, ?_, ?_⟩ <;> decide

theorem witness_BusError_writes :
    (hostDoes (.write 0x0#28 (.word 0#32)) State.reset).hostReady (.write 0x0#28 (.word 0#32)) [] ∧
      accessAllowed Config.vectorParams (widthOf (.word 0#32)) 0x0#28 ∧
      ¬ accessAllowed Config.vectorParams (widthOf (.word 0#32)) 0x1000000#28 ∧
      ¬ accessAllowed Config.vectorParams (widthOf (.half 0#16)) 0x4#28 := by
  unfold State.hostReady accessAllowed; decide

theorem witness_CmdWriteStartsCommand :
    (hostDoes (.write (regAddr .cmd) (.word 5#32)) State.reset).hostReady (.write (regAddr .cmd) (.word 5#32)) [] ∧
      State.reset.status.busy = false ∧ Reg.outLen.isResult = true := by
  unfold State.hostReady; decide

theorem witness_BusyCmdWriteIsDropped :
    (busyHost (.write (regAddr .cmd) (.word 2#32))).hostReady (.write (regAddr .cmd) (.word 2#32)) [] ∧
      (busyHost (.write (regAddr .cmd) (.word 2#32))).status.busy = true := by
  unfold State.hostReady; decide

/-- `IN_LEN`, `IN_BITLEN`, and the last byte of `IBUF`. -/
theorem witness_BusyInputWriteIsDropped :
    (busyHost (.write (regAddr .inLen) (.word 3#32))).hostReady (.write (regAddr .inLen) (.word 3#32)) [] ∧
      (busyHost (.write (regAddr .inBitlen) (.word 3#32))).hostReady (.write (regAddr .inBitlen) (.word 3#32)) [] ∧
      (busyHost (.write 0x1000FFF#28 (.byte 1#8))).hostReady (.write 0x1000FFF#28 (.byte 1#8)) [] ∧
      (0x1000FFF#28 : HostAddr).toNat = 0x1000000 + 4095 ∧
      4095 < (busyHost (.write 0x1000FFF#28 (.byte 1#8))).params.ibufBytes ∧
      (busyHost (.write 0x1000FFF#28 (.byte 1#8))).status.busy = true := by
  unfold State.hostReady; decide

theorem witness_IdleInputWriteIsStored :
    (hostDoes (.write (regAddr .inLen) (.word 3#32)) State.reset).hostReady (.write (regAddr .inLen) (.word 3#32)) [] ∧
      (hostDoes (.write (regAddr .inBitlen) (.word 3#32)) State.reset).hostReady (.write (regAddr .inBitlen) (.word 3#32)) [] ∧
      (hostDoes (.write 0x1000000#28 (.byte 1#8)) State.reset).hostReady (.write 0x1000000#28 (.byte 1#8)) [] ∧
      (0x1000000#28 : HostAddr).toNat = 0x1000000 + 0 ∧ 0 < State.reset.params.ibufBytes ∧
      State.reset.status.busy = false := by
  unfold State.hostReady; decide

/-- LC-19, idle and busy. -/
theorem witness_ReadOnlyWriteIsIgnored :
    (hostDoes (.write (regAddr .status) (.word 0xFFFFFFFF#32)) State.reset).hostReady
        (.write (regAddr .status) (.word 0xFFFFFFFF#32)) [] ∧ Reg.status.access ≠ .rw ∧ Reg.markerLen.access ≠ .rw ∧
      (busyHost (.write 0x2010FFF#28 (.byte 1#8))).hostReady (.write 0x2010FFF#28 (.byte 1#8)) [] ∧
      (0x2010FFF#28 : HostAddr).toNat = 0x2000000 + 69631 ∧
      69631 < (busyHost (.write 0x2010FFF#28 (.byte 1#8))).params.obufBytes := by
  unfold State.hostReady; decide

theorem witness_ReadsAnswerExactValues :
    (busyHost (.read .w32 (regAddr .status))).hostReady (.read .w32 (regAddr .status)) [] ∧ Reg.status.isResult = false ∧
      (hostDoes (.read .w32 (regAddr .outLen)) State.reset).hostReady (.read .w32 (regAddr .outLen)) [] ∧
      State.reset.status.busy = false ∧
      (busyHost (.read .w8 0x1000000#28)).hostReady (.read .w8 0x1000000#28) [] ∧
      (0x1000000#28 : HostAddr).toNat = 0x1000000 + 0 ∧ 0 < State.reset.params.ibufBytes ∧
      (hostDoes (.read .w8 0x2000000#28) State.reset).hostReady (.read .w8 0x2000000#28) [] ∧
      (0x2000000#28 : HostAddr).toNat = 0x2000000 + 0 ∧ 0 < State.reset.params.obufBytes := by
  unfold State.hostReady; decide

theorem witness_BusyReadDrawsAFreeValue :
    (busyHost (.read .w32 (regAddr .textLen))).hostReady (.read .w32 (regAddr .textLen)) [] ∧ Reg.textLen.isResult = true ∧
      (busyHost (.read .w8 0x2000000#28)).hostReady (.read .w8 0x2000000#28) [] ∧
      (0x2000000#28 : HostAddr).toNat = 0x2000000 + 0 ∧
      0 < (busyHost (.read .w8 0x2000000#28)).params.obufBytes ∧ (busyHost (.read .w8 0x2000000#28)).status.busy = true := by
  unfold State.hostReady; decide

/-- An idle block and a host with `COPYOUT n` to do. -/
def copying (n : Nat) (ts : List Turn) : State := { State.reset with host := assembleLine (.copyout n) ++ [.wait], turns := ts }

/-- `COPYOUT 2` and the empty `COPYOUT 0` with their turns listed and others after them, `COPYOUT 2` with none listed, and the
largest count. -/
theorem witness_CopyOutCopiesTheOutput :
    ((copying 2 [.host, .host, .host, .host, .engine]).params.wf = true ∧
      (copying 2 [.host, .host, .host, .host, .engine]).inReset = false ∧
      (copying 2 [.host, .host, .host, .host, .engine]).status.busy = false ∧
      (copying 2 [.host, .host, .host, .host, .engine]).turns = List.replicate (2 * 2) .host ++ [.engine] ∧
      2 ≤ (copying 2 [.host, .host, .host, .host, .engine]).params.ibufBytes ∧
      (copying 2 [.host, .host, .host, .host, .engine]).host = assembleLine (.copyout 2) ++ [.wait]) ∧
    ((copying 0 [.host]).turns = List.replicate (2 * 0) .host ++ [.host] ∧ 0 ≤ (copying 0 [.host]).params.ibufBytes ∧
      (copying 0 [.host]).host = assembleLine (.copyout 0) ++ [.wait]) ∧
    ((copying 2 []).turns = [] ∧ (copying 2 []).host = assembleLine (.copyout 2) ++ [.wait]) ∧
    4096 ≤ State.reset.params.ibufBytes := by
  refine ⟨⟨?_, ?_, ?_, ?_, ?_, ?_⟩, ⟨?_, ?_, ?_⟩, ⟨?_, ?_⟩, ?_⟩ <;> decide

/-- `ENCODE` in flight and a host that polls. -/
def polling (ts : List Turn) : State := { inFlight .encode State.reset with host := [.wait], turns := ts }

/-- No poll and three polls before a listed completion, with a turn after it; no poll and three polls with nothing more
listed. -/
theorem witness_WaitSeesTheCompletion :
    ((polling [.engine, .host]).params.wf = true ∧ (polling [.engine, .host]).inReset = false ∧
      (polling [.engine, .host]).status.busy = true ∧ (polling [.engine, .host]).host = .wait :: [] ∧
      (polling [.engine, .host]).turns = List.replicate 0 .host ++ .engine :: .host :: []) ∧
    (polling [.host, .host, .host, .engine, .host, .assertReset]).turns =
      List.replicate 3 .host ++ .engine :: .host :: [.assertReset] ∧
    (polling []).turns = List.replicate 0 .host ∧
    ((polling [.host, .host, .host]).params.wf = true ∧ (polling [.host, .host, .host]).inReset = false ∧
      (polling [.host, .host, .host]).status.busy = true ∧ (polling [.host, .host, .host]).host = .wait :: [] ∧
      (polling [.host, .host, .host]).turns = List.replicate 3 .host) := by
  refine ⟨⟨?_, ?_, ?_, ?_, ?_⟩, ?_, ?_, ?_, ?_, ?_, ?_, ?_⟩ <;> decide

theorem witness_StepRunsTheLatchedCommand :
    (inFlight .parseTlm State.reset).engineTurnReady ∧ decode (inFlight .parseTlm State.reset).cmd = .ok .parseTlm ∧
      Instr.parseTlm.wf = true := by
  unfold State.engineTurnReady; decide

theorem witness_ClearZeroesResults :
    ({ hostDoes (.write (regAddr .cmd) (.word 0#32)) State.reset with turns := [.host, .engine] } : State).hostReady
        (.write (regAddr .cmd) (.word 0x00000000#32)) [] ∧ State.reset.status.busy = false := by
  unfold State.hostReady; decide

theorem witness_IllegalWordCompletes :
    ({ hostDoes (.write (regAddr .cmd) (.word 4#32)) State.reset with turns := [.host, .engine] } : State).hostReady
        (.write (regAddr .cmd) (.word 4#32)) [] ∧ State.reset.status.busy = false ∧ 4#32 ≠ 0x00000000#32 ∧
      4#32 ≠ 0x00000001#32 ∧ 4#32 ≠ 0x00000002#32 ∧ 4#32 ≠ 0x00000003#32 ∧ 4#32 ≠ 0x00000013#32 := by
  unfold State.hostReady; decide

/-- SYNC-6. -/
theorem witness_FailureWritesNoOutput_short :
    ∃ t, exec .recover (inFlight .recover (loaded [0xAA#8, 0xAA#8, 0x08#8, 0x01#8, 0xC0#8, 0x05#8, 0x00#8, 0xFE#8] 0 63)) =
        .next t ∧ t.status.code = .syncHeaderTooShort := next_with (by decide)

/-- SYNC-4, with the result registers zero as after an acceptance. -/
theorem witness_FailureWritesNoOutput_none :
    (inFlight .recover (loaded [0x00#8, 0x00#8] 0 16)).results = Results.zero ∧
      ∃ t, exec .recover (inFlight .recover (loaded [0x00#8, 0x00#8] 0 16)) = .next t ∧ t.status.code = .preambleNotFound :=
  ⟨rfl, next_with (by decide)⟩

/-- Both sides of each range of `OutcomeCodesExactly`: `IN_LEN` 4096 and 4097, 5 and 6; `IN_BITLEN` 32769. -/
theorem witness_OutcomeCodesExactly :
    State.reset.params.wf = true ∧
      (∃ t, exec .parseTlm (loaded [] 4097 0) = .next t ∧ t.status.code = .lenRange) ∧
      (∃ t, exec .parseTlm (loaded packet1 5 0) = .next t ∧ t.status.code = .parseHeaderTooShort) ∧
      (∃ t, exec .parseTlm (loaded packet1 6 0) = .next t ∧ t.status.code = .ok) ∧
      (∃ t, exec .recover (loaded [] 0 32769) = .next t ∧ t.status.code = .lenRange) ∧
      (∃ t, exec .recover (loaded frame1 0 64) = .next t ∧ t.status.code = .ok) :=
  ⟨by decide, next_with (by decide), next_with (by decide), next_with (by decide), next_with (by decide),
    next_with (by decide)⟩

/-- Two states with different histories and the same inputs. -/
theorem witness_OutcomeDependsOnInputsOnly :
    let s := inFlight .encode (loaded packet1 7 0)
    let u := { s with obuf := [(0, 0x55#8)], inBitlen := 9, ibuf := Memory.cellsAt 0 (packet1 ++ [0x77#8]), epoch := 4 }
    s.results = Results.zero ∧ u.results = Results.zero ∧
      (s.params = u.params ∧ s.inLen = u.inLen ∧ ∀ a, a < s.inLen.toNat → ibufByte s a = ibufByte u a) ∧
      (∃ s', exec .encode s = .next s' ∧ s'.status.code = .ok) ∧ ∃ u', exec .encode u = .next u' ∧ u'.status.code = .ok :=
  ⟨rfl, rfl, ⟨rfl, rfl, by decide⟩, next_with (by decide), next_with (by decide)⟩

/-- `IN_LEN` at and one above `IBUF_BYTES`. -/
theorem witness_EncodeWritesTheFrame :
    (loaded [] 4096 0).inLen.toNat ≤ (loaded [] 4096 0).params.ibufBytes ∧
      (loaded [] 4097 0).params.ibufBytes < (loaded [] 4097 0).inLen.toNat ∧ (loaded [] 4096 0).params.wf = true := by decide

theorem witness_BitsAndBytesConvert :
    ([true, true, true, true, true, true, true] : List Bit).length < 8 ∧ ([] : List Bit).length < 8 := by decide

theorem witness_BitStreamOfTheBuffer : 71 < (loaded frame1 0 72).inBitlen.toNat := by decide

/-- SYNC-3: shift 0 at bit 24 before shift 3 at bit 3. -/
theorem witness_LowestShiftFirstMatchIsSelected :
    selectPreamble (bitsMsb [0x15#8, 0x55#8, 0x40#8, 0xAA#8, 0xAA#8]) = some (0, 24) ∧
      selectPreamble (bitsMsb [0x15#8, 0x55#8, 0x40#8, 0xAA#8]) = some (3, 3) ∧
      selectPreamble (bitsMsb [0x15#8, 0x55#8]) = none := by decide

/-- `J` of 6 bits (offset 8: shift 0 matches the true preamble at bit 8 first), of 5 bits and of none. -/
theorem witness_OffsetEndingInOneZeroMatchesEarly :
    (List.replicate 6 false : List Bit).length ≤ 6 ∧
      selectPreamble (List.replicate 6 false ++ [true, false] ++ bitsMsb frame1) = some (0, 8) ∧
      selectPreamble (List.replicate 5 false ++ [true, false] ++ bitsMsb frame1) = some (5, 5) ∧
      selectPreamble ([] ++ [true, false] ++ bitsMsb frame1) = some (0, 0) := by decide

theorem witness_RecoveredBytesAreMsbFirst : 6 < (recoveredBytes (bitsMsb frame1) 0).length := by decide

/-- The clauses of `PacketIsLengthCorrected`: no preamble, five recovered bytes, six. -/
theorem witness_PacketIsLengthCorrected :
    noPreamble [] ∧ selectPreamble (bitsMsb (frame1.take 7)) = some (0, 0) ∧
      (recoveredBytes (bitsMsb (frame1.take 7)) 0).length < 6 ∧
      selectPreamble (bitsMsb (frame1.take 8)) = some (0, 0) ∧ 6 ≤ (recoveredBytes (bitsMsb (frame1.take 8)) 0).length := by
  refine ⟨?_, by decide⟩
  rintro s p - ⟨k, -, h⟩ -
  simp at h

/-- The clauses of `RecoverReportsThePacket`. -/
theorem witness_RecoverReportsThePacket :
    (loaded [] 0 32769).inBitlen.toNat > 8 * (loaded [] 0 32769).params.ibufBytes ∧
      (loaded [] 0 0).inBitlen.toNat ≤ 8 * (loaded [] 0 0).params.ibufBytes ∧
      recoverPacket (inputBits (loaded [] 0 0)) = .error .preambleNotFound ∧
      recoverPacket (inputBits (loaded frame1 0 63)) = .error (.headerTooShort ⟨0, 0, 5⟩) ∧
      recoverPacket (inputBits (loaded frame1 0 72)) = .ok ⟨packet1, ⟨0, 0, 7⟩, 1, 1, .equal⟩ :=
  ⟨by decide, by decide, by rfl, by rfl, by rfl⟩

theorem witness_RecoverRegisterRanges :
    (loaded frame1 0 72).params.wf = true ∧ ∃ t, exec .recover (loaded frame1 0 72) = .next t ∧ t.status.code = .ok :=
  ⟨by decide, next_with (by decide)⟩

/-- RT-1 in small: the frame of `packet1`, as `ENCODE` wrote it, back in `IBUF`. -/
theorem witness_EncodeThenRecoverIsLossless :
    let s := loaded packet1 7 0
    let u := loaded frame1 0 72
    s.params.wf = true ∧ s.inLen.toNat ≤ s.params.ibufBytes ∧ 6 ≤ s.inLen.toNat ∧
      s.inLen.toNat = 6 + expectedLen (lenFieldOf (inputBytes s)) ∧ u.params = s.params ∧
      8 * (s.inLen.toNat + 2) ≤ u.inBitlen.toNat ∧ u.inBitlen.toNat ≤ 8 * u.params.ibufBytes ∧
      ∃ t, exec .encode s = .next t ∧ ∀ a, a < s.inLen.toNat + 2 → ibufByte u a = obufByte t a :=
  ⟨by decide, by decide, by decide, by decide, rfl, by decide, by decide, next_with (by decide)⟩

theorem witness_HeaderFieldsAreParsed : (packet1.take 5).length < 6 ∧ 6 ≤ (packet1.take 6).length ∧ 7 ≤ packet1.length := by
  decide

theorem witness_CommandRegionStartsAtTheOffset : packet1.length ≤ Config.vectorParams.cmdTextOffset := by decide

/-- PAR-2: the marker right after the header; PAR-12: the marker in the header only. -/
theorem witness_TelemetryRegion_found :
    markerAt [0x54#8, 0x3E#8] [0x08#8, 0x05#8, 0x00#8, 0x03#8, 0x00#8, 0x07#8, 0x54#8, 0x3E#8] 6 ∧
      ∀ j, j < 6 → ¬ markerAt [0x54#8, 0x3E#8] [0x08#8, 0x05#8, 0x00#8, 0x03#8, 0x00#8, 0x07#8, 0x54#8, 0x3E#8] j := by
  unfold markerAt; decide

theorem witness_TelemetryRegion_absent :
    ∀ i, ¬ markerAt [0x54#8, 0x3E#8] [0x54#8, 0x3E#8, 0x00#8, 0x05#8, 0x00#8, 0x02#8, 0x37#8, 0x3A#8, 0x61#8] i := by
  rintro i ⟨h, h', e⟩
  simp only [List.length_cons, List.length_nil] at h'
  obtain rfl | rfl : i = 6 ∨ i = 7 := by omega
  · revert e; decide
  · revert e; decide

/-- First and last sequences of rows of R111, and their neighbours outside. -/
theorem witness_Utf8IsConcatenationOfSequences :
    utf8Ok [0x7F#8, 0xC2#8, 0x80#8, 0xE0#8, 0xA0#8, 0x80#8, 0xF4#8, 0x8F#8, 0xBF#8, 0xBF#8] = true ∧
      utf8Ok [0xC1#8, 0x80#8] = false ∧ utf8Ok [0xED#8, 0xA0#8, 0x80#8] = false ∧
      utf8Ok [0xF4#8, 0x90#8, 0x80#8, 0x80#8] = false ∧ utf8Ok [0xE1#8, 0x80#8] = false := by decide

theorem witness_TrailingNulsAreStripped :
    utf8Ok (⟨[0x61#8, 0x00#8], false, false⟩ : Region).bytes = true ∧
      (⟨[0x61#8, 0x00#8], false, false⟩ : Region).idAllowed = false := by decide

theorem witness_InvalidRegionBecomesHex : utf8Ok (⟨[0xC0#8, 0xAF#8], true, true⟩ : Region).bytes = false := by decide

/-- `"7:a:b"`: the first colon; `":x"`: no digit before it. -/
theorem witness_IdIsTheDigitRunBeforeTheColon :
    utf8Ok [0x37#8, 0x3A#8, 0x61#8, 0x3A#8, 0x62#8] = true ∧ idColonAt (stripNul [0x37#8, 0x3A#8, 0x61#8, 0x3A#8, 0x62#8]) 1 ∧
      utf8Ok [0x3A#8, 0x78#8] = true ∧ ∀ c, ¬ idColonAt (stripNul [0x3A#8, 0x78#8]) c := by
  refine ⟨by decide, ⟨by decide, by decide, by decide, ?_⟩, by decide, ?_⟩
  · intro j hj
    obtain rfl : j = 0 := by omega
    exact ⟨0x37#8, by decide, by decide, by decide⟩
  · rintro c ⟨-, h, h1, -⟩
    exact h 0 h1 (by decide)

theorem witness_IdValueIsDecimal : decValue [0x30#8, 0x30#8, 0x37#8] = 7 ∧
    (splitId [0x34#8, 0x32#8, 0x39#8, 0x34#8, 0x39#8, 0x36#8, 0x37#8, 0x32#8, 0x39#8, 0x36#8, 0x3A#8]).1 = some (2 ^ 32) := by
  decide

/-- The three clauses of each `PARSE` form, at `IN_LEN` 4097, 5 and 6. -/
theorem witness_ParseReportsTheFields :
    (loaded [] 4097 0).params.ibufBytes < (loaded [] 4097 0).inLen.toNat ∧
      (loaded [] 5 0).inLen.toNat ≤ (loaded [] 5 0).params.ibufBytes ∧ (loaded [] 5 0).inLen.toNat < 6 ∧
      6 ≤ (loaded [] 6 0).inLen.toNat ∧ (loaded [] 4096 0).inLen.toNat ≤ (loaded [] 4096 0).params.ibufBytes := by decide

theorem witness_RecoveredPacketAlwaysParses :
    (loaded packet1 7 0).params = (loaded frame1 0 72).params ∧
      (loaded packet1 7 0).inLen.toNat ≤ (loaded packet1 7 0).params.ibufBytes ∧ (loaded frame1 0 72).params.wf = true ∧
      ∃ t, exec .recover (loaded frame1 0 72) = .next t ∧ t.status.code = .ok ∧
        (loaded packet1 7 0).inLen = t.results.outLen :=
  ⟨rfl, by decide, by decide, next_with (by decide)⟩

/-- Reset asserted while `ENCODE` is in flight, two turns, released. -/
theorem witness_ResetAbandonsTheCommand :
    let s := { inFlight .encode State.reset with turns := [.assertReset, .host, .engine, .releaseReset] }
    s.params.wf = true ∧ (∀ t ∈ [Turn.host, Turn.engine], t = .host ∨ t = .engine) ∧
      s.turns = .assertReset :: ([.host, .engine] ++ .releaseReset :: []) := by decide

theorem witness_ConfigurationIsConstantOrRefused :
    (∃ t, step State.reset = .next t ∧ t.params = Config.vectorParams) ∧
      (State.resetFor { Config.vectorParams with tlmMarker := [] }).params.wf = false :=
  ⟨next_with (by decide), by decide⟩

theorem witness_InputBufferChangesOnlyByTheHost :
    ∃ t, step (hostDoes (.write 0x1000000#28 (.byte 1#8)) (loaded [0#8] 0 0)) = .next t ∧
      ibufByte t 0 ≠ ibufByte (hostDoes (.write 0x1000000#28 (.byte 1#8)) (loaded [0#8] 0 0)) 0 := next_with (by decide)

theorem witness_OutputBufferChangesOnlyBySuccess :
    ∃ t, step (inFlight .encode { loaded [] 0 0 with obuf := [(1, 0#8)] }) = .next t ∧
      obufByte t 1 ≠ obufByte (inFlight .encode { loaded [] 0 0 with obuf := [(1, 0#8)] }) 1 := next_with (by decide)

theorem witness_ResultsStayUntilTheNextCommand :
    let s := hostDoes (.write (regAddr .inLen) (.word 3#32)) State.reset
    (∃ t, step s = .next t ∧ t.inLen = 3) ∧ s.status.busy = false ∧ s.inReset = false ∧
      ∀ w rest, currentTurn s = .host → s.host ≠ .write (regAddr .cmd) (.word w) :: rest :=
  ⟨next_with (by decide), rfl, rfl, fun _ _ _ h => by injection h with h; injection h with h; exact absurd h (by decide)⟩

theorem witness_BusyBeginsAndEndsAsStated :
    (∃ t, step (inFlight .clear State.reset) = .next t ∧ t.status.busy = false) ∧
      (inFlight .clear State.reset).status.busy = true ∧
      ∃ t, step (hostDoes (.write (regAddr .cmd) (.word 0#32)) State.reset) = .next t ∧ t.status.busy = true :=
  ⟨next_with (by decide), rfl, next_with (by decide)⟩

theorem witness_CollideMeansADroppedWrite :
    (busyHost (.write (regAddr .cmd) (.word 2#32))).status.collide = false ∧
      ∃ t, step (busyHost (.write (regAddr .cmd) (.word 2#32))) = .next t ∧ t.status.collide = true :=
  ⟨rfl, next_with (by decide)⟩

/-- A state in flight that has the invariant, and its step. -/
theorem witness_EveryStepKeepsTheInvariant :
    (inFlight .encode (loaded packet1 7 0)).inv = true ∧
      ∃ t, step (inFlight .encode (loaded packet1 7 0)) = .next t ∧ t.status.done = true :=
  ⟨by decide, next_with (by decide)⟩

end Sys2Proof.Tests
end

section
/-! # Bits and bytes (R9): what packing does to every bit stream -/

namespace Sys2Proof.Machine

/-- Each output byte of `packMsb` takes eight bits, and a last group that is not full gives none. -/
theorem length_packMsb (b : List Bit) : (packMsb b).length = b.length / 8 := by
  induction hn : b.length using Nat.strong_induction_on generalizing b with
  | _ n ih =>
    subst hn
    rcases Nat.lt_or_ge b.length 8 with hshort | hlong
    · rw [packMsb_of_short hshort, List.length_nil]
      omega
    · obtain ⟨_, hpack, -⟩ := packMsb_of_long hlong
      have htail : (packMsb (b.drop 8)).length = (b.length - 8) / 8 := by
        rw [ih _ (by rw [List.length_drop]; omega) _ rfl, List.length_drop]
      rw [hpack, List.length_cons, htail]
      omega

theorem packMsb_bitsMsb_append (bs : List Byte) {tail : List Bit} (h : tail.length < 8) :
    packMsb (bitsMsb bs ++ tail) = bs := by
  induction bs with
  | nil => exact packMsb_of_short h
  | cons b bs ih => rw [bitsMsb_cons, List.append_assoc, packMsb_byteBits_append, ih]

/-- Bit `i` of a byte sequence is bit `7 - i mod 8` of byte `i div 8` (R9). -/
theorem getElem?_bitsMsb (bs : List Byte) (i : Nat) :
    (bitsMsb bs)[i]? = (bs[i / 8]?).map fun b => b.getLsbD (7 - i % 8) := by
  induction bs generalizing i with
  | nil => simp
  | cons b bs ih =>
    rcases Nat.lt_or_ge i 8 with hfirst | hlater
    · rw [bitsMsb_cons, List.getElem?_append_left hfirst, getElem?_byteBits b i hfirst,
        Nat.div_eq_of_lt hfirst, Nat.mod_eq_of_lt hfirst]
      rfl
    · obtain ⟨j, rfl⟩ := Nat.exists_eq_add_of_le hlater
      have hbyte : (8 + j) / 8 = j / 8 + 1 := by omega
      rw [bitsMsb_cons, List.getElem?_append_right hlater, length_byteBits, Nat.add_sub_cancel_left, ih, hbyte,
        List.getElem?_cons_succ, Nat.add_mod_left]

/-- Settles O24: `packMsb` consumes eight bits at a time, and `bitsMsb` is read and packed byte by byte. -/
theorem bitsAndBytesConvert : Obligations.BitsAndBytesConvert :=
  ⟨length_packMsb, fun bs _ h => packMsb_bitsMsb_append bs h, getElem?_bitsMsb⟩

end Sys2Proof.Machine
end

section
/-! # The configuration (R6): its constraints in numbers, and that every operation keeps it -/

namespace Sys2Proof.Machine

/-- The constraints of R6 in numbers. -/
theorem wf_params_iff (p : Params) : p.wf = true ↔
    (8 ≤ p.ibufBytes ∧ p.ibufBytes ≤ 2 ^ 23 ∧ 65541 ≤ p.obufBytes ∧ 2 * p.ibufBytes ≤ p.obufBytes ∧
      p.obufBytes ≤ 2 ^ 24 ∧ 6 ≤ p.cmdTextOffset ∧ p.cmdTextOffset ≤ p.ibufBytes ∧ 1 ≤ p.tlmMarker.length ∧
      p.tlmMarker.length ≤ 255) := by
  simp only [Params.wf, Params.ibufSizeOk, Params.obufSizeOk, Params.textOffsetOk, Params.markerOk, Bool.and_eq_true,
    decide_eq_true_eq, Nat.max_le]
  tauto

/-- The room R6 gives an output: the longest packet, and two output bytes for each input byte. -/
theorem obufBytes_room {p : Params} (h : p.wf = true) :
    8 ≤ p.ibufBytes ∧ 65541 ≤ p.obufBytes ∧ 2 * p.ibufBytes ≤ p.obufBytes := by
  obtain ⟨hmin, -, hpacket, hdouble, -⟩ := (wf_params_iff p).1 h
  exact ⟨hmin, hpacket, hdouble⟩

@[simp] theorem portRead_params (g : Target) (s : State) : (portRead g s).2.params = s.params := by
  rcases portRead_cases g s with h | ⟨-, h⟩ <;> rw [h]

@[simp] theorem portWrite_params (g : Target) (d : BusData) (s : State) : (portWrite g d s).params = s.params := by
  rcases portWrite_cases g d s with hsame | ⟨-, hdrop, -⟩ | ⟨-, hstore⟩
  · rw [hsame]
  · rw [hdrop, dropWrite_params]
  · rcases hstore with ⟨_, -, -, h⟩ | ⟨_, -, -, h⟩ | ⟨_, -, -, h⟩ | ⟨_, _, -, -, h⟩ <;> rw [h] <;> rfl

theorem hostAccess_params {op : HostOp} {rest : List HostOp} {s t : State} (h : hostAccess op rest s = .next t) :
    t.params = s.params := by
  rcases hostAccess_next_cases h with ⟨_, _, g, _, _, -, -, rfl⟩ | ⟨_, d, g, -, -, rfl⟩ | ⟨-, rfl⟩
  · exact portRead_params g s
  · exact portWrite_params g d s
  · rfl

theorem hostTurn_params {s t : State} (h : hostTurn s = .next t) : t.params = s.params := by
  rcases hostTurn_next_cases h with rfl | ⟨-, _, _, -, haccess⟩
  · rfl
  · exact hostAccess_params haccess

theorem CompletedFrom.params_eq {s t : State} (h : CompletedFrom s t) : t.params = s.params := by
  cases h <;> rfl

/-- The completion step answers a state that `CompletedFrom` describes, and no other. -/
theorem completedFrom_of_completionStep {s t : State} (h : completionStep s = .next t) : CompletedFrom s t := by
  obtain ⟨u, hu, hc⟩ := completionStep_completes s
  rw [hu] at h
  cases h
  exact hc

theorem engineTurn_params {s t : State} (h : engineTurn s = .next t) : t.params = s.params := by
  rcases engineTurn_next_cases h with rfl | ⟨-, -, hstep⟩
  · rfl
  · exact (completedFrom_of_completionStep hstep).params_eq

theorem step_params {s t : State} (h : step s = .next t) : t.params = s.params := by
  obtain ⟨-, ⟨-, hhost⟩ | ⟨-, hengine⟩ | ⟨-, rfl⟩ | ⟨-, rfl⟩⟩ := step_next_cases h
  · exact (hostTurn_params hhost).trans (takeTurn_params s)
  · exact (engineTurn_params hengine).trans (takeTurn_params s)
  · rfl
  · exact releaseReset_params (takeTurn s)

theorem step_of_bad_configuration {s : State} (h : s.params.wf = false) : step s = .refused .badConfiguration := by
  simp [step, machineStep, h]

/-- Settles O48: the agents' steps keep the parameters, and the step looks at the constraints first. -/
theorem configurationIsConstantOrRefused : Obligations.ConfigurationIsConstantOrRefused :=
  ⟨fun _ _ h => ⟨step_params h, (step_next_cases h).1⟩, fun _ => step_of_bad_configuration, wf_params_iff⟩

end Sys2Proof.Machine
end

section
/-! # Outputs and reports of the commands: lengths and values, as R84, R96 and R112 to R117 bound them -/

namespace Sys2Proof.Machine

/-! ## Register words as numbers -/

theorem toNat_ofNat_le (w n : Nat) : (BitVec.ofNat w n).toNat ≤ n := by
  rw [BitVec.toNat_ofNat]
  exact Nat.mod_le n _

/-- `s | (recon << 4)` as a number (R99). -/
theorem syncInfoWord_toNat {shift : Nat} (recon : Recon) (h : shift < 16) :
    (syncInfoWord shift recon).toNat = 16 * reconNumber recon + shift := by
  have hshift : (BitVec.ofNat 4 shift).toNat = shift := by
    rw [BitVec.toNat_ofNat]
    exact Nat.mod_eq_of_lt h
  have hhigh : ((0 : BitVec 26) ++ reconBits recon).toNat = reconNumber recon := by cases recon <;> rfl
  have hword : (syncInfoWord shift recon).toNat =
      ((0 : BitVec 26) ++ reconBits recon).toNat <<< 4 ||| (BitVec.ofNat 4 shift).toNat := BitVec.toNat_append _ _
  rw [hword, hhigh, hshift, Nat.shiftLeft_eq, Nat.mul_comm, ← Nat.two_pow_add_eq_or_of_lt h]

theorem reconNumber_le (recon : Recon) : reconNumber recon ≤ 2 := by cases recon <;> decide

theorem pflagsWord_lt : ∀ hasCmdCode hasId textHex markerFound idOvf : Bool,
    (pflagsWord hasCmdCode hasId textHex markerFound idOvf).toNat < 2 ^ 5 := by decide

/-- A masked field has no bit above its mask. -/
theorem toNat_and_lt {w n : Nat} (x mask : BitVec w) (h : mask.toNat < n) : (x &&& mask).toNat < n := by
  rw [BitVec.toNat_and]
  exact Nat.lt_of_le_of_lt Nat.and_le_right h

/-- A narrow field in a 32-bit register keeps its value, so the bits above its width are 0 (R40). -/
theorem toNat_setWidth_lt {w n : Nat} (x : BitVec w) (h : x.toNat < n) : (x.setWidth 32).toNat < n := by
  rw [BitVec.toNat_setWidth]
  exact Nat.lt_of_le_of_lt (Nat.mod_le _ _) h

/-! ## The synchronizer -/

/-- The selected shift is one of those tried (R89). -/
theorem selectPreamble_shift_le {b : List Bit} {shift pos : Nat} (h : selectPreamble b = some (shift, pos)) :
    shift ≤ Config.maxShift := by
  obtain ⟨tried, htried, hscan⟩ := List.exists_of_findSome?_eq_some h
  obtain ⟨_, -, heq⟩ := Option.map_eq_some_iff.1 hscan
  cases heq
  exact Nat.lt_succ_iff.1 (List.mem_range.1 htried)

/-- All that a successful recovery can be (R92 to R96). -/
theorem recoverPacket_eq_ok {b : List Bit} {r : Recovered} (h : recoverPacket b = .ok r) :
    ∃ shift pos, selectPreamble b = some (shift, pos) ∧ Config.headerBytes ≤ (recoveredBytes b pos).length ∧
      r = reconcilePacket ⟨shift, pos, (recoveredBytes b pos).length⟩ (recoveredBytes b pos) := by
  unfold recoverPacket at h
  split at h
  · cases h
  · next shift pos hsel =>
    dsimp only at h
    split at h
    · cases h
    · next hlen =>
      cases h
      exact ⟨shift, pos, hsel, Nat.not_lt.1 hlen, rfl⟩

/-- All that a recovery with too few bytes for a header can report (R93). -/
theorem recoverPacket_eq_headerTooShort {b : List Bit} {info : SyncInfo}
    (h : recoverPacket b = .error (.headerTooShort info)) :
    ∃ shift pos, selectPreamble b = some (shift, pos) ∧ (recoveredBytes b pos).length < Config.headerBytes ∧
      info = ⟨shift, pos, (recoveredBytes b pos).length⟩ := by
  unfold recoverPacket at h
  split at h
  · cases h
  · next shift pos hsel =>
    dsimp only at h
    split at h
    · next hlen =>
      cases h
      exact ⟨shift, pos, hsel, hlen, rfl⟩
    · cases h

theorem headerTooShort_shift_le {b : List Bit} {info : SyncInfo} (h : recoverPacket b = .error (.headerTooShort info)) :
    info.shift ≤ Config.maxShift := by
  obtain ⟨shift, pos, hsel, -, rfl⟩ := recoverPacket_eq_headerTooShort h
  exact selectPreamble_shift_le hsel

theorem recovered_shift_le {b : List Bit} {r : Recovered} (h : recoverPacket b = .ok r) :
    r.info.shift ≤ Config.maxShift := by
  obtain ⟨shift, pos, hsel, -, rfl⟩ := recoverPacket_eq_ok h
  exact selectPreamble_shift_le hsel

/-- The expected payload length is a 16-bit number (R94). -/
theorem recovered_expected_lt {b : List Bit} {r : Recovered} (h : recoverPacket b = .ok r) : r.expected < 65536 := by
  obtain ⟨shift, pos, -, -, rfl⟩ := recoverPacket_eq_ok h
  exact expectedLen_lt _

/-- A recovered packet is its header and as many payload bytes as the header declares (R95, R96). -/
theorem length_recovered_packet {b : List Bit} {r : Recovered} (h : recoverPacket b = .ok r) :
    r.packet.length = Config.headerBytes + r.expected := by
  obtain ⟨shift, pos, -, hlen, rfl⟩ := recoverPacket_eq_ok h
  simp only [reconcilePacket, List.length_append, List.length_take, length_reconcile]
  omega

/-! ## The parser -/

theorem length_stripNul_le (r : List Byte) : (stripNul r).length ≤ r.length := by
  rw [stripNul, List.length_reverse, ← List.length_reverse (as := r)]
  exact (List.dropWhile_sublist _).length_le

theorem length_hexLower (r : List Byte) : (hexLower r).length = 2 * r.length := by
  induction r with
  | nil => rfl
  | cons b r ih =>
    rw [hexLower] at ih ⊢
    rw [List.flatMap_cons, List.length_append, ih, List.length_cons, List.length_cons, List.length_cons,
      List.length_nil]
    omega

/-- The first `':'` cuts a sequence into the bytes before it and the bytes after it (R114). -/
theorem eq_append_of_splitColon {t d rest : List Byte} (h : splitColon t = some (d, rest)) :
    t = d ++ 0x3A#8 :: rest := by
  induction t generalizing d with
  | nil => cases h
  | cons b t ih =>
    rw [splitColon] at h
    split at h
    · next hb =>
      cases h
      rw [hb, List.nil_append]
    · split at h
      · next d' t' hrec =>
        cases h
        rw [ih hrec, List.cons_append]
      · cases h

theorem length_splitId_le (t : List Byte) : (splitId t).2.length ≤ t.length := by
  unfold splitId
  split
  · next d rest hcolon =>
    split
    · show rest.length ≤ t.length
      rw [eq_append_of_splitColon hcolon, List.length_append, List.length_cons]
      omega
    · exact Nat.le_refl _
  · exact Nat.le_refl _

theorem length_afterMarker_le {M P r : List Byte} (h : afterMarker M P = some r) : r.length ≤ P.length := by
  induction P with
  | nil =>
    rw [afterMarker] at h
    split at h
    · cases h
      exact Nat.le_refl _
    · cases h
  | cons b P ih =>
    rw [afterMarker] at h
    split at h
    · cases h
      rw [List.length_drop]
      exact Nat.sub_le _ _
    · exact Nat.le_succ_of_le (ih h)

/-- The region is a part of the packet (R109, R110). -/
theorem length_regionOf_le (p : Params) (dir : Direction) (P : List Byte) :
    (regionOf p dir P).bytes.length ≤ P.length := by
  cases dir with
  | cmd =>
    show (P.drop p.cmdTextOffset).length ≤ P.length
    rw [List.length_drop]
    exact Nat.sub_le _ _
  | tlm =>
    have hdrop : (P.drop Config.headerBytes).length ≤ P.length := by
      rw [List.length_drop]
      exact Nat.sub_le _ _
    show (telemetryRegion p P).bytes.length ≤ P.length
    unfold telemetryRegion
    split
    · next hmarker => exact Nat.le_trans (length_afterMarker_le hmarker) hdrop
    · exact hdrop

/-- The text is at most two bytes for each byte of the region: the hex form doubles it, the others shorten it (R112 to
R114). -/
theorem length_decodeRegion_le (r : Region) : (decodeRegion r).2.2.length ≤ 2 * r.bytes.length := by
  have hstrip := length_stripNul_le r.bytes
  unfold decodeRegion
  split
  · split
    · have hsplit := length_splitId_le (stripNul r.bytes)
      dsimp only
      omega
    · dsimp only
      omega
  · exact Nat.le_of_eq (length_hexLower r.bytes)

/-- A successful parse has a header, and this is what its fields are (R104 to R117). -/
theorem parsePacket_eq_ok {p : Params} {dir : Direction} {P : List Byte} {f : ParsedFields}
    (h : parsePacket p dir P = .ok f) :
    Config.headerBytes ≤ P.length ∧
      f = { streamId := streamIdOf P, seqCtl := seqCtlOf P, lenField := lenFieldOf P,
            apid := streamIdOf P &&& Config.apidMask, seqCount := seqCtlOf P &&& Config.seqCountMask,
            cmdCode := cmdCodeOf dir P, markerFound := (regionOf p dir P).markerFound,
            id := (decodeRegion (regionOf p dir P)).1, textHex := (decodeRegion (regionOf p dir P)).2.1,
            text := (decodeRegion (regionOf p dir P)).2.2 } := by
  unfold parsePacket at h
  split at h
  · cases h
  · next hlen =>
    cases h
    exact ⟨Nat.not_lt.1 hlen, rfl⟩

theorem length_parsed_text_le {p : Params} {dir : Direction} {P : List Byte} {f : ParsedFields}
    (h : parsePacket p dir P = .ok f) : f.text.length ≤ 2 * P.length := by
  obtain ⟨-, rfl⟩ := parsePacket_eq_ok h
  exact Nat.le_trans (length_decodeRegion_le _) (Nat.mul_le_mul_left 2 (length_regionOf_le p dir P))

theorem parsed_apid_lt {p : Params} {dir : Direction} {P : List Byte} {f : ParsedFields}
    (h : parsePacket p dir P = .ok f) : f.apid.toNat < 2 ^ 11 := by
  obtain ⟨-, rfl⟩ := parsePacket_eq_ok h
  exact toNat_and_lt _ _ (by decide)

theorem parsed_seqCount_lt {p : Params} {dir : Direction} {P : List Byte} {f : ParsedFields}
    (h : parsePacket p dir P = .ok f) : f.seqCount.toNat < 2 ^ 14 := by
  obtain ⟨-, rfl⟩ := parsePacket_eq_ok h
  exact toNat_and_lt _ _ (by decide)

/-! ## The outputs fit `OBUF` (R84, and R6 for the sizes) -/

theorem byteLenOk_iff (s : State) : byteLenOk s = true ↔ s.inLen.toNat ≤ s.params.ibufBytes := by
  simp [byteLenOk]

theorem length_encodeFrame (P : List Byte) : (encodeFrame P).length = P.length + 2 := by
  simp [encodeFrame, Config.preamble]

theorem encodeFrame_fits {s : State} (hp : s.params.wf = true) (hlen : byteLenOk s = true) :
    (encodeFrame (inputBytes s)).length ≤ s.params.obufBytes := by
  obtain ⟨hmin, -, hdouble⟩ := obufBytes_room hp
  rw [byteLenOk_iff] at hlen
  rw [length_encodeFrame, length_inputBytes]
  omega

theorem recovered_packet_fits {p : Params} {b : List Bit} {r : Recovered} (hp : p.wf = true)
    (h : recoverPacket b = .ok r) : r.packet.length ≤ p.obufBytes := by
  obtain ⟨-, hpacket, -⟩ := obufBytes_room hp
  have hexpected := recovered_expected_lt h
  rw [length_recovered_packet h, Config.headerBytes]
  omega

theorem parsed_text_fits {s : State} {dir : Direction} {f : ParsedFields} (hp : s.params.wf = true)
    (hlen : byteLenOk s = true) (h : parsePacket s.params dir (inputBytes s) = .ok f) :
    f.text.length ≤ s.params.obufBytes := by
  obtain ⟨-, -, hdouble⟩ := obufBytes_room hp
  have htext := length_parsed_text_le h
  rw [byteLenOk_iff] at hlen
  rw [length_inputBytes] at htext
  omega

end Sys2Proof.Machine
end

section
/-! # The invariant of the machine: what each operation needs to keep it -/

namespace Sys2Proof.Machine

/-! ## The parts of the invariant -/

theorem inv_iff (s : State) : s.inv = true ↔
    s.params.wf = true ∧ s.buffersOk = true ∧ s.handshakeOk = true ∧ s.resultsClearOk = true ∧
      s.results.widthsOk = true ∧ s.failureQuiet = true ∧ s.outputFits = true := by
  simp only [State.inv, Bool.and_eq_true, and_assoc]

theorem buffersOk_iff (s : State) : s.buffersOk = true ↔
    Memory.wf s.ibuf = true ∧ Memory.within s.params.ibufBytes s.ibuf = true ∧
      Memory.wf s.obuf = true ∧ Memory.within s.params.obufBytes s.obuf = true := by
  simp only [State.buffersOk, Bool.and_eq_true, and_assoc]

theorem failureQuiet_iff (s : State) : s.failureQuiet = true ↔
    (s.status.code = .ok ∨ s.results.outLen = 0 ∧ s.results.textLen = 0) := by
  simp only [State.failureQuiet, Bool.or_eq_true, Bool.and_eq_true, decide_eq_true_eq]

theorem outputFits_iff (s : State) : s.outputFits = true ↔ s.results.outLen.toNat ≤ s.params.obufBytes := by
  simp only [State.outputFits, decide_eq_true_eq]

theorem widthsOk_iff (r : Results) : r.widthsOk = true ↔
    r.syncInfo.toNat < 2 ^ 6 ∧ r.syncInfo.toNat % 16 ≤ 8 ∧ r.syncInfo.toNat / 16 ≤ 2 ∧ r.expLen.toNat < 2 ^ 17 ∧
      r.streamId.toNat < 2 ^ 16 ∧ r.seqCtl.toNat < 2 ^ 16 ∧ r.lenField.toNat < 2 ^ 16 ∧ r.apid.toNat < 2 ^ 11 ∧
      r.seqCount.toNat < 2 ^ 14 ∧ r.cmdCode.toNat < 2 ^ 8 ∧ r.pflags.toNat < 2 ^ 5 := by
  simp only [Results.widthsOk, Bool.and_eq_true, decide_eq_true_eq, and_assoc]

theorem widthsOk_zero : Results.zero.widthsOk = true := by decide

/-- While a command is in flight the invariant says that every result register is 0 (R73). -/
theorem results_zero_of_busy {s : State} (h : s.inv = true) (hbusy : s.status.busy = true) : s.results = Results.zero := by
  obtain ⟨-, -, -, hclear, -⟩ := (inv_iff s).1 h
  simpa [State.resultsClearOk, hbusy] using hclear

/-- With the result registers at 0 only the configuration, the buffers and the handshake are left to show. -/
theorem inv_of_results_zero {s : State} (hp : s.params.wf = true) (hb : s.buffersOk = true) (hh : s.handshakeOk = true)
    (hr : s.results = Results.zero) : s.inv = true := by
  refine (inv_iff s).2 ⟨hp, hb, hh, ?_, hr ▸ widthsOk_zero, ?_, ?_⟩
  · simp [State.resultsClearOk, hr]
  · rw [failureQuiet_iff, hr]
    exact .inr ⟨rfl, rfl⟩
  · rw [outputFits_iff, hr]
    exact Nat.zero_le _

/-! ## The host's operations and reset -/

@[simp] theorem inv_dropWrite (s : State) : (dropWrite s).inv = s.inv := rfl

@[simp] theorem inv_takeTurn (s : State) : (takeTurn s).inv = s.inv := rfl

@[simp] theorem inv_assertReset (s : State) : (assertReset s).inv = s.inv := rfl

@[simp] theorem inv_pollStatus (rest : List HostOp) (s : State) : (pollStatus rest s).inv = s.inv := rfl

/-- The agents around the block are no part of the invariant. -/
theorem inv_set_port_host (s : State) (ans : PortAnswer) (ops : List HostOp) :
    { s with port := ans, host := ops }.inv = s.inv := rfl

theorem inv_accept (w : Word) {s : State} (h : s.inv = true) : (accept w s).inv = true := by
  obtain ⟨hp, hb, -⟩ := (inv_iff s).1 h
  exact inv_of_results_zero hp hb rfl rfl

theorem inv_writeIbuf {a : Nat} (b : Byte) {s : State} (h : s.inv = true) (ha : a < s.params.ibufBytes) :
    (writeIbuf a b s).inv = true := by
  obtain ⟨hp, hb, hrest⟩ := (inv_iff s).1 h
  obtain ⟨hiwf, hiin, howf, hoin⟩ := (buffersOk_iff s).1 hb
  have hbuffers : (writeIbuf a b s).buffersOk = true :=
    (buffersOk_iff _).2 ⟨Memory.wf_store a [b] hiwf, Memory.within_store hiin ha, howf, hoin⟩
  exact (inv_iff _).2 ⟨hp, hbuffers, hrest⟩

/-- Releasing reset starts again from the registers of R137, with nothing written. -/
theorem inv_releaseReset {s : State} (h : s.inv = true) : (releaseReset s).inv = true := by
  cases hr : s.inReset
  · rwa [releaseReset_of_not_asserted s hr]
  · rw [releaseReset_of_asserted s hr]
    obtain ⟨hp, -⟩ := (inv_iff s).1 h
    exact inv_of_results_zero hp rfl rfl rfl

theorem inv_portRead (g : Target) (s : State) : (portRead g s).2.inv = s.inv := by
  rcases portRead_cases g s with hsame | ⟨-, hdraw⟩
  · rw [hsame]
  · rw [hdraw]
    rfl

/-- The port answers for a byte of `IBUF` only below its size (R43). -/
theorem offset_lt_of_targetOf_ibuf {p : Params} {w : Width} {a : HostAddr} {n : Nat}
    (h : targetOf p w a = some (.ibuf n)) : n < p.ibufBytes := by
  rcases (targetOf_eq_some_iff p w a _).1 h with ⟨-, _, -, ht⟩ | ⟨-, m, -, -, hm, ht⟩ | ⟨-, _, -, -, -, ht⟩
  · cases ht
  · cases ht
    exact hm
  · cases ht

/-- A write to a target that exists: ignored, dropped, or one of the four stores of an idle block. -/
theorem inv_portWrite {w : Width} {a : HostAddr} {g : Target} (d : BusData) {s : State} (h : s.inv = true)
    (hg : targetOf s.params w a = some g) : (portWrite g d s).inv = true := by
  rcases portWrite_cases g d s with hsame | ⟨-, hdrop, -⟩ | ⟨-, hstore⟩
  · rwa [hsame]
  · rwa [hdrop, inv_dropWrite]
  · rcases hstore with ⟨v, -, -, hcmd⟩ | ⟨v, -, -, hlen⟩ | ⟨v, -, -, hlen⟩ | ⟨n, b, rfl, -, hbyte⟩
    · rw [hcmd]
      exact inv_accept v h
    · rw [hlen]
      exact h
    · rw [hlen]
      exact h
    · rw [hbyte]
      exact inv_writeIbuf b h (offset_lt_of_targetOf_ibuf hg)

theorem inv_hostAccess {op : HostOp} {rest : List HostOp} {s t : State} (h : s.inv = true)
    (hstep : hostAccess op rest s = .next t) : t.inv = true := by
  rcases hostAccess_next_cases hstep with ⟨_, _, g, _, _, -, -, rfl⟩ | ⟨_, d, g, -, hg, rfl⟩ | ⟨-, rfl⟩
  · rwa [inv_set_port_host, inv_portRead]
  · rw [inv_set_port_host]
    exact inv_portWrite d h hg
  · rwa [inv_pollStatus]

theorem inv_hostTurn {s t : State} (h : s.inv = true) (hstep : hostTurn s = .next t) : t.inv = true := by
  rcases hostTurn_next_cases hstep with rfl | ⟨-, _, _, -, haccess⟩
  · exact h
  · exact inv_hostAccess h haccess

/-! ## Completion steps -/

/-- What is left to show of a command's end: `DONE` and `BUSY` are as R74 says. -/
theorem inv_complete {c : Code} {s : State} (hp : s.params.wf = true) (hb : s.buffersOk = true)
    (hw : s.results.widthsOk = true) (hq : c = .ok ∨ s.results.outLen = 0 ∧ s.results.textLen = 0)
    (hf : s.results.outLen.toNat ≤ s.params.obufBytes) : (complete c s).inv = true :=
  (inv_iff _).2 ⟨hp, hb, rfl, rfl, hw, (failureQuiet_iff _).2 hq, (outputFits_iff _).2 hf⟩

theorem buffersOk_emit {bs : List Byte} {s : State} (h : s.buffersOk = true) (hl : bs.length ≤ s.params.obufBytes) :
    (emit bs s).buffersOk = true := by
  obtain ⟨hiwf, hiin, howf, hoin⟩ := (buffersOk_iff s).1 h
  exact (buffersOk_iff _).2
    ⟨hiwf, hiin, Memory.wf_store 0 bs howf, Memory.within_store hoin (by rwa [Nat.zero_add])⟩

/-- `OUT_LEN` uses all 32 bits, so an output changes nothing here. -/
@[simp] theorem widthsOk_emit (bs : List Byte) (s : State) : (emit bs s).results.widthsOk = s.results.widthsOk := rfl

theorem emit_outLen_le {bs : List Byte} {s : State} (hl : bs.length ≤ s.params.obufBytes) :
    (emit bs s).results.outLen.toNat ≤ s.params.obufBytes :=
  Nat.le_trans (toNat_ofNat_le 32 bs.length) hl

/-- `SHIFT` alone is written: `RECON` stays as it was (R100). -/
theorem widthsOk_reportShortSync {info : SyncInfo} {s : State} (hw : s.results.widthsOk = true) (hs : info.shift ≤ 8) :
    (reportShortSync info s).results.widthsOk = true := by
  obtain ⟨hsync, -, hrecon, hrest⟩ := (widthsOk_iff _).1 hw
  have hword : (reportShortSync info s).results.syncInfo.toNat = 16 * (s.results.syncInfo.toNat / 16) + info.shift :=
    setShift_toNat _ _ (by omega)
  refine (widthsOk_iff _).2 ⟨?_, ?_, ?_, hrest⟩ <;> (rw [hword]; omega)

theorem widthsOk_reportRecovered {r : Recovered} {s : State} (hw : s.results.widthsOk = true) (hs : r.info.shift ≤ 8)
    (he : r.expected < 65536) : (reportRecovered r s).results.widthsOk = true := by
  obtain ⟨-, -, -, -, -, -, -, hrest⟩ := (widthsOk_iff _).1 hw
  have hrecon := reconNumber_le r.recon
  have hword : (reportRecovered r s).results.syncInfo.toNat = 16 * reconNumber r.recon + r.info.shift :=
    syncInfoWord_toNat r.recon (by omega)
  have hexp : (reportRecovered r s).results.expLen.toNat < 2 ^ 17 :=
    Nat.lt_of_le_of_lt (toNat_ofNat_le 32 r.expected) (by omega)
  refine (widthsOk_iff _).2 ⟨?_, ?_, ?_, hexp, toNat_setWidth_lt _ (BitVec.isLt _), toNat_setWidth_lt _ (BitVec.isLt _),
    toNat_setWidth_lt _ (BitVec.isLt _), hrest⟩ <;> (rw [hword]; omega)

/-- `CMD_CODE` is the code byte, or as it was when the packet has none (R118). -/
theorem reportParsed_cmdCode_lt (f : ParsedFields) {s : State} (h : s.results.cmdCode.toNat < 2 ^ 8) :
    (reportParsed f s).results.cmdCode.toNat < 2 ^ 8 := by
  rw [reportParsed_results_cmdCode]
  cases f.cmdCode with
  | none => exact h
  | some v => exact toNat_setWidth_lt v v.isLt

theorem widthsOk_reportParsed {f : ParsedFields} {s : State} (hw : s.results.widthsOk = true)
    (ha : f.apid.toNat < 2 ^ 11) (hc : f.seqCount.toNat < 2 ^ 14) : (reportParsed f s).results.widthsOk = true := by
  obtain ⟨hsync, hshift, hrecon, hexp, -, -, -, -, -, hcode, -⟩ := (widthsOk_iff _).1 hw
  exact (widthsOk_iff _).2 ⟨hsync, hshift, hrecon, hexp, toNat_setWidth_lt _ (BitVec.isLt _),
    toNat_setWidth_lt _ (BitVec.isLt _), toNat_setWidth_lt _ (BitVec.isLt _), toNat_setWidth_lt _ ha,
    toNat_setWidth_lt _ hc, reportParsed_cmdCode_lt f hcode, pflagsWord_lt _ _ _ _ _⟩

/-- The end of every command keeps the invariant: an output fits, a report keeps its widths, and a failure leaves the
lengths of R78 at the 0 they had while busy. -/
theorem inv_of_completedFrom {s t : State} (h : s.inv = true) (hbusy : s.status.busy = true)
    (hc : CompletedFrom s t) : t.inv = true := by
  have hzero := results_zero_of_busy h hbusy
  obtain ⟨hp, hb, -, -, hw, -, hfits⟩ := (inv_iff s).1 h
  cases hc with
  | plain c => exact inv_of_results_zero hp hb rfl hzero
  | shortSync info hrec hlen =>
    exact inv_complete hp hb (widthsOk_reportShortSync hw (headerTooShort_shift_le hrec))
      (.inr (by simp [hzero, Results.zero])) ((outputFits_iff s).1 hfits)
  | frame hlen =>
    have hroom := encodeFrame_fits hp hlen
    exact inv_complete hp (buffersOk_emit hb hroom) hw (.inl rfl) (emit_outLen_le hroom)
  | recovered r hrec hlen =>
    have hroom := recovered_packet_fits hp hrec
    have hwidths : (reportRecovered r (emit r.packet s)).results.widthsOk = true :=
      widthsOk_reportRecovered hw (recovered_shift_le hrec) (recovered_expected_lt hrec)
    exact inv_complete hp (buffersOk_emit hb hroom) hwidths (.inl rfl) (emit_outLen_le hroom)
  | parsed dir f hparse hlen =>
    have hroom := parsed_text_fits hp hlen hparse
    have hwidths : (reportParsed f (emit f.text s)).results.widthsOk = true :=
      widthsOk_reportParsed hw (parsed_apid_lt hparse) (parsed_seqCount_lt hparse)
    exact inv_complete hp (buffersOk_emit hb hroom) hwidths (.inl rfl) (emit_outLen_le hroom)

theorem inv_engineTurn {s t : State} (h : s.inv = true) (hstep : engineTurn s = .next t) : t.inv = true := by
  rcases engineTurn_next_cases hstep with rfl | ⟨hbusy, -, hc⟩
  · exact h
  · exact inv_of_completedFrom h hbusy (completedFrom_of_completionStep hc)

/-! ## The step -/

/-- Settles O55: one case for each agent that can move. -/
theorem everyStepKeepsTheInvariant : Obligations.EveryStepKeepsTheInvariant := by
  intro s t h hstep
  have hturn : (takeTurn s).inv = true := h
  obtain ⟨-, ⟨-, hhost⟩ | ⟨-, hengine⟩ | ⟨-, rfl⟩ | ⟨-, rfl⟩⟩ := step_next_cases hstep
  · exact inv_hostTurn hturn hhost
  · exact inv_engineTurn hturn hengine
  · rwa [inv_assertReset]
  · exact inv_releaseReset hturn

end Sys2Proof.Machine
end

section
/-! # Register words and the register map: `STATUS`, `SYNC_INFO` and `PFLAGS` as numbers, and the address of each register -/

namespace Sys2Proof.Machine

/-- Fields side by side, as a number: the high field stands above the `w` bits of the low one. -/
theorem toNat_append_eq_add {v w : Nat} (high : BitVec v) (low : BitVec w) :
    (high ++ low).toNat = 2 ^ w * high.toNat + low.toNat := by
  rw [BitVec.toNat_append, Nat.shiftLeft_eq, Nat.mul_comm, Nat.two_pow_add_eq_or_of_lt low.isLt]

@[simp] theorem codeBits_toNat (c : Code) : (codeBits c).toNat = codeNumber c := by cases c <;> rfl

theorem statusWord_toNat (st : Status) : (statusWord st).toNat =
    st.done.toNat + 2 * st.busy.toNat + 4 * st.collide.toNat + 256 * codeNumber st.code := by
  simp only [statusWord, toNat_append_eq_add, BitVec.toNat_ofBool, codeBits_toNat, BitVec.ofNat_eq_ofNat, BitVec.toNat_zero]
  omega

theorem pflagsWord_toNat (hasCmdCode hasId textHex markerFound idOvf : Bool) :
    (pflagsWord hasCmdCode hasId textHex markerFound idOvf).toNat =
      hasCmdCode.toNat + 2 * hasId.toNat + 4 * textHex.toNat + 8 * markerFound.toNat + 16 * idOvf.toNat := by
  simp only [pflagsWord, toNat_append_eq_add, BitVec.toNat_ofBool, BitVec.ofNat_eq_ofNat, BitVec.toNat_zero]
  omega

/-- Settles O3: each register word is its fields side by side, from the lowest one up. -/
theorem flagRegisterLayouts : Obligations.FlagRegisterLayouts := by
  refine ⟨statusWord_toNat, fun shift recon hshift => ?_, pflagsWord_toNat⟩
  rw [syncInfoWord_toNat recon (by omega), Nat.add_comm]

/-- Register `k` of the map has offset `4k` (R15). -/
theorem offset_of_allRegs_getElem? {k : Nat} {r : Reg} (h : allRegs[k]? = some r) : r.offset = 4 * k := by
  have hmap : allRegs.map Reg.offset = (List.range 23).map (4 * ·) := rfl
  have hentry : (allRegs.map Reg.offset)[k]? = some r.offset := by rw [List.getElem?_map, h, Option.map_some]
  rw [hmap, List.getElem?_map, Option.map_eq_some_iff] at hentry
  obtain ⟨j, hj, hoffset⟩ := hentry
  obtain ⟨_, rfl⟩ := List.getElem?_eq_some_iff.1 hj
  rw [← hoffset, List.getElem_range]

/-! ## The host's turn, when the port answers -/

theorem step_of_hostReady {s : State} {op : HostOp} {rest : List HostOp} (h : s.hostReady op rest) :
    step s = hostAccess op rest (takeTurn s) := by
  obtain ⟨hwf, hreset, hturn, hhost⟩ := h
  rw [step_of_host hwf hturn, hostTurn, takeTurn_inReset, hreset, takeTurn_host, hhost]
  rfl

/-- A read that reads `g`, on the host's turn. -/
theorem step_read {s : State} {w : Width} {a : HostAddr} {rest : List HostOp} {g : Target}
    (h : s.hostReady (.read w a) rest) (hg : targetOf s.params w a = some g) :
    step s = .next { (portRead g (takeTurn s)).2 with port := .data (portRead g (takeTurn s)).1, host := rest } :=
  (step_of_hostReady h).trans (hostAccess_read hg)

/-- A write that writes `g`, on the host's turn. -/
theorem step_write {s : State} {a : HostAddr} {d : BusData} {rest : List HostOp} {g : Target}
    (h : s.hostReady (.write a d) rest) (hg : targetOf s.params (widthOf d) a = some g) :
    step s = .next { portWrite g d (takeTurn s) with port := .ack, host := rest } :=
  (step_of_hostReady h).trans (hostAccess_write hg)

/-- The turn taken is no register. -/
@[simp] theorem readReg_takeTurn (r : Reg) (s : State) : readReg r (takeTurn s) = readReg r s := by cases r <;> rfl

/-- A 32-bit read of a register that has its exact value answers it and changes nothing in the block (R51, R144). -/
theorem step_read_reg_exact {s : State} {r : Reg} {rest : List HostOp} (h : s.hostReady (.read .w32 (regAddr r)) rest)
    (hexact : r.isResult = false ∨ s.status.busy = false) :
    step s = .next (s.afterHost rest (.data (.word (readReg r s)))) := by
  have hread : portRead (.reg r) (takeTurn s) = (.word (readReg r (takeTurn s)), takeTurn s) := portReadReg_exact hexact
  rw [step_read h (targetOf_regAddr s.params r), hread, readReg_takeTurn]
  rfl

/-- Settles O4: the address `4k` is the address of the map's register `k`, and an idle block answers its exact value. -/
theorem registerMapReads : Obligations.RegisterMapReads := by
  refine ⟨fun s k r rest hk hready hidle => ?_, fun _ => rfl⟩
  rw [← offset_of_allRegs_getElem? hk] at hready
  exact step_read_reg_exact hready (.inr hidle)

/-! ## Stores of an idle block -/

/-- Where byte `n` of `IBUF` stands, in a configuration the block can be built for. -/
theorem targetOf_ibuf_of_wf {p : Params} {a : HostAddr} {n : Nat} (hp : p.wf = true) (ha : a.toNat = 0x1000000 + n)
    (hn : n < p.ibufBytes) : targetOf p .w8 a = some (.ibuf n) := by
  obtain ⟨-, hsize, -⟩ := (wf_params_iff p).1 hp
  exact targetOf_ibuf ha (by omega) hn

theorem portWrite_inLen_of_idle (v : Word) {s : State} (h : s.status.busy = false) :
    portWrite (.reg .inLen) (.word v) s = { s with inLen := v } := by
  simp [portWrite, portWriteReg, h]

theorem portWrite_inBitlen_of_idle (v : Word) {s : State} (h : s.status.busy = false) :
    portWrite (.reg .inBitlen) (.word v) s = { s with inBitlen := v } := by
  simp [portWrite, portWriteReg, h]

theorem portWrite_ibuf_of_idle (n : Nat) (b : Byte) {s : State} (h : s.status.busy = false) :
    portWrite (.ibuf n) (.byte b) s = writeIbuf n b s := by
  simp [portWrite, portWriteIbuf, h]

/-- Settles O9: one clause for each of the three input locations. -/
theorem idleInputWriteIsStored : Obligations.IdleInputWriteIsStored := by
  refine ⟨fun s v rest hready hidle => ?_, fun s v rest hready hidle => ?_,
    fun s a n b rest ha hn hready hidle => ?_⟩
  · rw [step_write hready (targetOf_regAddr s.params .inLen), portWrite_inLen_of_idle (s := takeTurn s) v hidle]
    rfl
  · rw [step_write hready (targetOf_regAddr s.params .inBitlen), portWrite_inBitlen_of_idle (s := takeTurn s) v hidle]
    rfl
  · have hwf : s.params.wf = true := hready.1
    refine ⟨_, step_write hready (targetOf_ibuf_of_wf hwf ha hn), ?_⟩
    rw [portWrite_ibuf_of_idle (s := takeTurn s) n b hidle]
    exact ⟨ibufByte_writeIbuf n b s, rfl⟩

end Sys2Proof.Machine
end

section
/-! # What a step can do to the block: one case for each rule that lets it change, and what BUSY, COLLIDE and the two
buffers need from it -/

namespace Sys2Proof.Machine

/-! ## The block and the agents around it -/

/-- `t` is `s` but for the agents around the block: their turns, the host's operations, the port's answer and the count of
free values drawn. Every register, both buffers, the reset input and the reset number are as they were. -/
inductive SameBlock (s : State) : State → Prop
  | agents (ts : List Turn) (ops : List HostOp) (ans : PortAnswer) (n : Nat) :
      SameBlock s { s with turns := ts, host := ops, port := ans, draws := n }

theorem SameBlock.status_eq {s t : State} (h : SameBlock s t) : t.status = s.status := by cases h; rfl

theorem SameBlock.cmd_eq {s t : State} (h : SameBlock s t) : t.cmd = s.cmd := by cases h; rfl

theorem SameBlock.ibufByte_eq {s t : State} (h : SameBlock s t) (a : Nat) : ibufByte t a = ibufByte s a := by
  cases h; rfl

theorem SameBlock.obufByte_eq {s t : State} (h : SameBlock s t) (a : Nat) : obufByte t a = obufByte s a := by
  cases h; rfl

theorem SameBlock.refl (s : State) : SameBlock s s := .agents s.turns s.host s.port s.draws

theorem sameBlock_takeTurn (s : State) : SameBlock s (takeTurn s) := .agents s.turns.tail s.host s.port s.draws

theorem sameBlock_pollStatus (rest : List HostOp) (s : State) : SameBlock s (pollStatus rest s) :=
  .agents s.turns _ _ s.draws

theorem SameBlock.trans {s t u : State} (h : SameBlock s t) (h' : SameBlock t u) : SameBlock s u := by
  cases h; cases h'; exact .agents _ _ _ _

theorem SameBlock.set_port_host {s t : State} (h : SameBlock s t) (ans : PortAnswer) (ops : List HostOp) :
    SameBlock s { t with port := ans, host := ops } :=
  h.trans (.agents t.turns ops ans t.draws)

/-- No read changes the block (R51, R142). -/
theorem sameBlock_portRead (g : Target) (s : State) : SameBlock s (portRead g s).2 := by
  rcases portRead_cases g s with h | ⟨-, h⟩ <;> rw [h]
  · exact .refl s
  · exact .agents s.turns s.host s.port (s.draws + 1)

/-! ## What a host write can do -/

/-- The locations whose writes are stored while idle and dropped while busy (R71, R141, R143): `CMD`, `IN_LEN`, `IN_BITLEN`
and the bytes of `IBUF`, each with data of its width. -/
def inputLocation (p : Params) (a : HostAddr) (d : BusData) : Prop :=
  (∃ v, d = .word v ∧ (a = regAddr .cmd ∨ a = regAddr .inLen ∨ a = regAddr .inBitlen)) ∨
    ∃ b n, d = .byte b ∧ a.toNat = 0x1000000 + n ∧ n < p.ibufBytes

/-- What a host write of `d` at `a` can do to the block: ignored (R44), dropped while busy (R141, R143), or while idle the
start of a command (R72), a stored length (R18, R19) or a stored byte (R37). -/
inductive WriteEffect (s : State) : HostAddr → BusData → State → Prop
  | ignored (a : HostAddr) (d : BusData) : WriteEffect s a d s
  | dropped (a : HostAddr) (d : BusData) : s.status.busy = true → inputLocation s.params a d →
      WriteEffect s a d (dropWrite s)
  | accepted (w : Word) : s.status.busy = false → WriteEffect s (regAddr .cmd) (.word w) (accept w s)
  | storedInLen (v : Word) : s.status.busy = false → WriteEffect s (regAddr .inLen) (.word v) { s with inLen := v }
  | storedInBitlen (v : Word) : s.status.busy = false →
      WriteEffect s (regAddr .inBitlen) (.word v) { s with inBitlen := v }
  | storedByte (a : HostAddr) (n : Nat) (b : Byte) : s.status.busy = false → a.toNat = 0x1000000 + n →
      n < s.params.ibufBytes → WriteEffect s a (.byte b) (writeIbuf n b s)

theorem eq_regAddr_of_targetOf {p : Params} {w : Width} {a : HostAddr} {r : Reg}
    (h : targetOf p w a = some (.reg r)) : a = regAddr r := by
  rcases (targetOf_eq_some_iff p w a _).1 h with ⟨-, _, ha, ht⟩ | ⟨-, _, -, -, -, ht⟩ | ⟨-, _, -, -, -, ht⟩
  · cases ht
    exact BitVec.eq_of_toNat_eq (ha.trans (regAddr_toNat r).symm)
  · cases ht
  · cases ht

theorem toNat_of_targetOf_ibuf {p : Params} {w : Width} {a : HostAddr} {n : Nat}
    (h : targetOf p w a = some (.ibuf n)) : a.toNat = 0x1000000 + n := by
  rcases (targetOf_eq_some_iff p w a _).1 h with ⟨-, _, -, ht⟩ | ⟨-, _, ha, -, -, ht⟩ | ⟨-, _, -, -, -, ht⟩
  · cases ht
  · cases ht
    exact ha
  · cases ht

/-- The cases of `portWrite_cases` with each target given back as its address. -/
theorem writeEffect_portWrite {s : State} {w : Width} {a : HostAddr} {g : Target} (d : BusData)
    (hg : targetOf s.params w a = some g) : WriteEffect s a d (portWrite g d s) := by
  rcases portWrite_cases g d s with hsame | ⟨hbusy, hdrop, hinput⟩ | ⟨hidle, hstore⟩
  · rw [hsame]
    exact .ignored a d
  · rw [hdrop]
    refine .dropped a d hbusy ?_
    rcases hinput with ⟨v, hd, hreg⟩ | ⟨n, b, hd, rfl⟩
    · rcases hreg with rfl | rfl | rfl
      · exact .inl ⟨v, hd, .inl (eq_regAddr_of_targetOf hg)⟩
      · exact .inl ⟨v, hd, .inr (.inl (eq_regAddr_of_targetOf hg))⟩
      · exact .inl ⟨v, hd, .inr (.inr (eq_regAddr_of_targetOf hg))⟩
    · exact .inr ⟨b, n, hd, toNat_of_targetOf_ibuf hg, offset_lt_of_targetOf_ibuf hg⟩
  · rcases hstore with ⟨v, rfl, rfl, h⟩ | ⟨v, rfl, rfl, h⟩ | ⟨v, rfl, rfl, h⟩ | ⟨n, b, rfl, rfl, h⟩
    · rw [h, eq_regAddr_of_targetOf hg]
      exact .accepted v hidle
    · rw [h, eq_regAddr_of_targetOf hg]
      exact .storedInLen v hidle
    · rw [h, eq_regAddr_of_targetOf hg]
      exact .storedInBitlen v hidle
    · rw [h]
      exact .storedByte a n b hidle (toNat_of_targetOf_ibuf hg) (offset_lt_of_targetOf_ibuf hg)

/-! ## What a step can do -/

/-- A turn of the host leaves the block alone or is a write that the port answers. -/
theorem hostTurn_block_cases {s t : State} (h : hostTurn s = .next t) :
    SameBlock s t ∨ (s.inReset = false ∧ ∃ a d rest u, s.host = .write a d :: rest ∧ WriteEffect s a d u ∧
      SameBlock u t) := by
  rcases hostTurn_next_cases h with rfl | ⟨hreset, op, rest, hhost, haccess⟩
  · exact .inl (.refl t)
  · rcases hostAccess_next_cases haccess with ⟨_, _, g, ans, ops, -, -, rfl⟩ | ⟨a, d, g, rfl, hg, rfl⟩ | ⟨-, rfl⟩
    · exact .inl ((sameBlock_portRead g s).set_port_host ans ops)
    · exact .inr ⟨hreset, a, d, rest, _, hhost, writeEffect_portWrite d hg, .agents _ rest .ack _⟩
    · exact .inl (sameBlock_pollStatus rest s)

/-- All a step can do to the block, with whose turn it was and what allowed the change (R52, R74, R136). -/
inductive StepEffect (s t : State) : Prop
  /-- An agent with nothing to do, a read, a poll, or a release without a reset before it. -/
  | quiet : SameBlock s t → StepEffect s t
  | hostWrite (a : HostAddr) (d : BusData) (rest : List HostOp) (u : State) : currentTurn s = .host →
      s.inReset = false → s.host = .write a d :: rest → WriteEffect (takeTurn s) a d u → SameBlock u t → StepEffect s t
  | completed : currentTurn s = .engine → s.inReset = false → s.status.busy = true →
      completionStep (takeTurn s) = .next t → StepEffect s t
  | resetAsserted : t = assertReset (takeTurn s) → StepEffect s t
  | resetReleased : currentTurn s = .releaseReset → s.inReset = true → t = releaseReset (takeTurn s) → StepEffect s t

theorem stepEffect_of_step {s t : State} (h : step s = .next t) : StepEffect s t := by
  have hsame := sameBlock_takeTurn s
  obtain ⟨-, ⟨hturn, hhost⟩ | ⟨hturn, hengine⟩ | ⟨-, ht⟩ | ⟨hturn, ht⟩⟩ := step_next_cases h
  · rcases hostTurn_block_cases hhost with hquiet | ⟨hreset, a, d, rest, u, hop, heffect, hu⟩
    · exact .quiet (hsame.trans hquiet)
    · exact .hostWrite a d rest u hturn hreset hop heffect hu
  · rcases engineTurn_next_cases hengine with rfl | ⟨hbusy, hreset, hc⟩
    · exact .quiet hsame
    · exact .completed hturn hreset hbusy hc
  · exact .resetAsserted ht
  · cases hr : s.inReset
    · rw [releaseReset_of_not_asserted (takeTurn s) hr] at ht
      exact .quiet (ht ▸ hsame)
    · exact .resetReleased hturn hr ht

end Sys2Proof.Machine
end

section
/-! # Safety of the flags and the buffers: each changes only by the rule that allows it -/

namespace Sys2Proof.Machine

theorem releaseReset_status {s : State} (h : s.inReset = true) : (releaseReset s).status = Status.reset := by
  rw [releaseReset_of_asserted s h]
  rfl

/-! ## What a completion step leaves in `STATUS` and the buffers -/

/-- A completion sets `DONE`, clears `BUSY` and keeps `COLLIDE` (R17, R74). -/
theorem CompletedFrom.status_eq {s t : State} (h : CompletedFrom s t) : t.status = s.status.completed t.status.code := by
  cases h <;> rfl

/-- No command writes `IBUF` (R49). -/
theorem CompletedFrom.ibufByte_eq {s t : State} (h : CompletedFrom s t) (a : Nat) : ibufByte t a = ibufByte s a := by
  cases h <;> rfl

/-- A completion that ends with `OK` and the output `bs` in `OBUF` (R20, R38). -/
def State.outputs (s t : State) (bs : List Byte) : Prop :=
  t.status.code = .ok ∧ t.results.outLen = BitVec.ofNat 32 bs.length ∧ bs.length ≤ s.params.obufBytes ∧ s.obufShows t bs

/-- A completion leaves `OBUF` alone, or it ends with `OK` and an output that fits (R38, R78, R84). -/
theorem CompletedFrom.obuf_cases {s t : State} (hp : s.params.wf = true) (h : CompletedFrom s t) :
    (∀ a, obufByte t a = obufByte s a) ∨ ∃ bs, s.outputs t bs := by
  cases h with
  | plain c => exact .inl fun _ => rfl
  | shortSync info hrec hlen => exact .inl fun _ => rfl
  | frame hlen => exact .inr ⟨_, rfl, rfl, encodeFrame_fits hp hlen, obufByte_emit _ s⟩
  | recovered r hrec hlen => exact .inr ⟨_, rfl, rfl, recovered_packet_fits hp hrec, obufByte_emit _ s⟩
  | parsed dir f hparse hlen => exact .inr ⟨_, rfl, rfl, parsed_text_fits hp hlen hparse, obufByte_emit _ s⟩

/-- A byte of `OBUF` that a completion changed lies inside the output it reports. -/
theorem CompletedFrom.obufByte_changed {s t : State} {n : Nat} (hp : s.params.wf = true) (h : CompletedFrom s t)
    (hn : obufByte t n ≠ obufByte s n) :
    t.status.code = .ok ∧ n < t.results.outLen.toNat ∧ t.results.outLen.toNat ≤ s.params.obufBytes := by
  rcases h.obuf_cases hp with hsame | ⟨bs, hcode, hlen, hfits, hshows⟩
  · exact absurd (hsame n) hn
  · obtain ⟨-, -, -, -, hmax, -⟩ := (wf_params_iff s.params).1 hp
    have houtLen : t.results.outLen.toNat = bs.length := by rw [hlen, toNat_ofNat_of_lt (by omega)]
    have hinside : n < bs.length := by
      by_contra houtside
      exact hn (by rw [hshows n, dif_neg houtside])
    exact ⟨hcode, houtLen ▸ hinside, houtLen ▸ hfits⟩

/-! ## What a host write leaves of `STATUS` and the buffers -/

/-- No host write reaches `OBUF` (R44). -/
theorem WriteEffect.obufByte_eq {s u : State} {a : HostAddr} {d : BusData} (h : WriteEffect s a d u) (n : Nat) :
    obufByte u n = obufByte s n := by
  cases h <;> rfl

/-- The one host write that changes a byte of `IBUF` is the idle block's write of that byte. -/
theorem WriteEffect.ibufByte_changed {s u : State} {a : HostAddr} {d : BusData} {n : Nat} (h : WriteEffect s a d u)
    (hn : ibufByte u n ≠ ibufByte s n) :
    s.status.busy = false ∧ n < s.params.ibufBytes ∧
      ∃ b, d = .byte b ∧ a.toNat = 0x1000000 + n ∧ ibufByte u n = b := by
  cases h with
  | storedByte _ m b hidle ha hm =>
    rw [ibufByte_writeIbuf] at hn ⊢
    by_cases hnm : n = m
    · subst hnm
      exact ⟨hidle, hm, b, rfl, ha, if_pos rfl⟩
    · exact absurd (if_neg hnm) hn
  | ignored | dropped | accepted | storedInLen | storedInBitlen => exact absurd rfl hn

/-- A host write never ends `BUSY`. -/
theorem WriteEffect.busy_of_busy {s u : State} {a : HostAddr} {d : BusData} (h : WriteEffect s a d u)
    (hbusy : s.status.busy = true) : u.status.busy = true := by
  cases h with
  | accepted => rfl
  | ignored | dropped | storedInLen | storedInBitlen | storedByte => exact hbusy

/-- The one host write that begins `BUSY` is an accepted `CMD` write (R71). -/
theorem WriteEffect.busy_begins {s u : State} {a : HostAddr} {d : BusData} (h : WriteEffect s a d u)
    (hidle : s.status.busy = false) (hbusy : u.status.busy = true) :
    ∃ w, a = regAddr .cmd ∧ d = .word w ∧ u.cmd = w := by
  cases h with
  | accepted w => exact ⟨w, rfl, rfl, rfl⟩
  | ignored | dropped | storedInLen | storedInBitlen | storedByte => exact absurd (hidle.symm.trans hbusy) (by decide)

/-- The one host write that sets `COLLIDE` is dropped while busy (R17). -/
theorem WriteEffect.collide_begins {s u : State} {a : HostAddr} {d : BusData} (h : WriteEffect s a d u)
    (hclear : s.status.collide = false) (hset : u.status.collide = true) :
    s.status.busy = true ∧ inputLocation s.params a d := by
  cases h with
  | dropped _ _ hbusy hinput => exact ⟨hbusy, hinput⟩
  | accepted => cases hset
  | ignored | storedInLen | storedInBitlen | storedByte => exact absurd (hclear.symm.trans hset) (by decide)

/-! ## The statements, by the effect of the step -/

/-- Settles O49: of the effects of a step only a stored byte and a reset reach `IBUF`. -/
theorem inputBufferChangesOnlyByTheHost : Obligations.InputBufferChangesOnlyByTheHost := by
  intro s t n hstep hn
  cases stepEffect_of_step hstep with
  | quiet hsame => exact absurd (hsame.ibufByte_eq n) hn
  | hostWrite a d rest u hturn hreset hhost heffect hsame =>
    rw [hsame.ibufByte_eq] at hn ⊢
    obtain ⟨hidle, hlt, b, rfl, ha, hb⟩ := heffect.ibufByte_changed hn
    exact .inr ⟨hturn, hreset, hidle, hlt, a, b, rest, hhost, ha, hb⟩
  | completed _ _ _ hc => exact absurd ((completedFrom_of_completionStep hc).ibufByte_eq n) hn
  | resetAsserted ht => exact absurd (ht ▸ rfl) hn
  | resetReleased hturn hreset _ => exact .inl ⟨hturn, hreset⟩

/-- Settles O50: of the effects of a step only a completion with an output and a reset reach `OBUF`. -/
theorem outputBufferChangesOnlyBySuccess : Obligations.OutputBufferChangesOnlyBySuccess := by
  intro s t n hstep hn
  obtain ⟨hwf, -⟩ := step_next_cases hstep
  cases stepEffect_of_step hstep with
  | quiet hsame => exact absurd (hsame.obufByte_eq n) hn
  | hostWrite _ _ _ _ _ _ _ heffect hsame =>
    exact absurd ((hsame.obufByte_eq n).trans (heffect.obufByte_eq n)) hn
  | completed hturn hreset hbusy hc =>
    exact .inr ⟨hturn, hreset, hbusy, (completedFrom_of_completionStep hc).obufByte_changed (s := takeTurn s) hwf hn⟩
  | resetAsserted ht => exact absurd (ht ▸ rfl) hn
  | resetReleased hturn hreset _ => exact .inl ⟨hturn, hreset⟩

/-- How `BUSY` ends (R74, R138). -/
theorem busy_ends {s t : State} (hstep : step s = .next t) (hbusy : s.status.busy = true)
    (hidle : t.status.busy = false) :
    (currentTurn s = .engine ∧ s.inReset = false ∧ completionStep (takeTurn s) = .next t ∧ t.status.done = true) ∨
      (currentTurn s = .releaseReset ∧ s.inReset = true ∧ t.status = Status.reset) := by
  cases stepEffect_of_step hstep with
  | quiet hsame =>
    rw [hsame.status_eq, hbusy] at hidle
    cases hidle
  | hostWrite _ _ _ _ _ _ _ heffect hsame =>
    rw [hsame.status_eq, heffect.busy_of_busy hbusy] at hidle
    cases hidle
  | completed hturn hreset _ hc =>
    refine .inl ⟨hturn, hreset, hc, ?_⟩
    rw [(completedFrom_of_completionStep hc).status_eq]
    rfl
  | resetAsserted ht =>
    rw [ht, assertReset_status, takeTurn_status, hbusy] at hidle
    cases hidle
  | resetReleased hturn hreset ht => exact .inr ⟨hturn, hreset, ht ▸ releaseReset_status hreset⟩

/-- How `BUSY` begins (R71, R72). -/
theorem busy_begins {s t : State} (hstep : step s = .next t) (hidle : s.status.busy = false)
    (hbusy : t.status.busy = true) :
    currentTurn s = .host ∧ s.inReset = false ∧
      ∃ w rest, s.host = .write (regAddr .cmd) (.word w) :: rest ∧ t.cmd = w := by
  cases stepEffect_of_step hstep with
  | quiet hsame =>
    rw [hsame.status_eq, hidle] at hbusy
    cases hbusy
  | hostWrite a d rest u hturn hreset hhost heffect hsame =>
    rw [hsame.status_eq] at hbusy
    obtain ⟨w, rfl, rfl, hcmd⟩ := heffect.busy_begins hidle hbusy
    exact ⟨hturn, hreset, w, rest, hhost, hsame.cmd_eq.trans hcmd⟩
  | completed _ _ hbusy' _ =>
    rw [hidle] at hbusy'
    cases hbusy'
  | resetAsserted ht =>
    rw [ht, assertReset_status, takeTurn_status, hidle] at hbusy
    cases hbusy
  | resetReleased _ hreset ht =>
    rw [ht, releaseReset_status (s := takeTurn s) hreset] at hbusy
    cases hbusy

/-- Settles O52: how `BUSY` ends, and how it begins. -/
theorem busyBeginsAndEndsAsStated : Obligations.BusyBeginsAndEndsAsStated :=
  ⟨fun _ _ => busy_ends, fun _ _ => busy_begins⟩

/-- Settles O53: of the effects of a step only a dropped write sets `COLLIDE`. -/
theorem collideMeansADroppedWrite : Obligations.CollideMeansADroppedWrite := by
  intro s t hstep hclear hset
  cases stepEffect_of_step hstep with
  | quiet hsame =>
    rw [hsame.status_eq, hclear] at hset
    cases hset
  | hostWrite a d rest u hturn hreset hhost heffect hsame =>
    rw [hsame.status_eq] at hset
    obtain ⟨hbusy, hinput⟩ := heffect.collide_begins hclear hset
    exact ⟨hbusy, hturn, hreset, a, d, rest, hhost, hinput⟩
  | completed _ _ _ hc =>
    rw [(completedFrom_of_completionStep hc).status_eq] at hset
    exact absurd (hclear.symm.trans hset) (by decide)
  | resetAsserted ht =>
    rw [ht, assertReset_status, takeTurn_status, hclear] at hset
    cases hset
  | resetReleased _ hreset ht =>
    rw [ht, releaseReset_status (s := takeTurn s) hreset] at hset
    cases hset

end Sys2Proof.Machine
end

section
/-! # The host's accesses: which go on (R42, R43), the writes that are ignored (R44), and the exact reads (R51, R144) -/

namespace Sys2Proof.Machine

/-! ## The accesses that go on -/

/-- The accesses R42 and R43 allow are those whose address means something. -/
theorem accessAllowed_iff_targetOf (p : Params) (w : Width) (a : HostAddr) :
    accessAllowed p w a ↔ ∃ g, targetOf p w a = some g := by
  simp only [targetOf_eq_some_iff]
  constructor
  · rintro (⟨hspace, hw, hmax, halign⟩ | ⟨hspace, hw, hsize⟩ | ⟨hspace, hw, hsize⟩)
    · obtain ⟨r, hr⟩ := exists_reg_of_offset (n := a.toNat) (by omega) (by omega)
      exact ⟨.reg r, .inl ⟨hw, r, hr.symm, rfl⟩⟩
    · exact ⟨_, .inr (.inl ⟨hw, a.toNat % 2 ^ 24, by omega, by omega, hsize, rfl⟩)⟩
    · exact ⟨_, .inr (.inr ⟨hw, a.toNat % 2 ^ 24, by omega, by omega, hsize, rfl⟩)⟩
  · rintro ⟨_, ⟨hw, r, ha, -⟩ | ⟨hw, n, ha, hn, hsize, -⟩ | ⟨hw, n, ha, hn, hsize, -⟩⟩
    · have hlt := offset_lt r
      have halign := offset_mod_four r
      exact .inl ⟨by omega, hw, by omega, by omega⟩
    · exact .inr (.inl ⟨by omega, hw, by omega⟩)
    · exact .inr (.inr ⟨by omega, hw, by omega⟩)

theorem targetOf_eq_none_of_not_allowed {p : Params} {w : Width} {a : HostAddr} (h : ¬ accessAllowed p w a) :
    targetOf p w a = none := by
  rw [accessAllowed_iff_targetOf] at h
  exact Option.eq_none_iff_forall_ne_some.2 fun g hg => h ⟨g, hg⟩

/-- A read at an address that means nothing is a fault of the host (R42, R132). -/
theorem step_read_busError {s : State} {w : Width} {a : HostAddr} {rest : List HostOp}
    (h : s.hostReady (.read w a) rest) (hg : targetOf s.params w a = none) : step s = .fault .busError := by
  rw [step_of_hostReady h]
  simp [hostAccess, busRead, hg]

/-- A write at an address that means nothing is a fault of the host (R42, R132). -/
theorem step_write_busError {s : State} {a : HostAddr} {d : BusData} {rest : List HostOp}
    (h : s.hostReady (.write a d) rest) (hg : targetOf s.params (widthOf d) a = none) : step s = .fault .busError := by
  rw [step_of_hostReady h]
  simp [hostAccess, busWrite, hg]

/-- Settles O5: an access goes on exactly when its address has a target, and the allowed accesses are those. -/
theorem busErrorExactlyOnIllFormedAccess : Obligations.BusErrorExactlyOnIllFormedAccess := by
  refine ⟨fun s w a rest hready => ⟨fun hallowed => ?_, fun hillegal => ?_⟩,
    fun s a d rest hready => ⟨fun hallowed => ?_, fun hillegal => ?_⟩⟩
  · obtain ⟨g, hg⟩ := (accessAllowed_iff_targetOf _ _ _).1 hallowed
    exact ⟨_, step_read hready hg⟩
  · exact step_read_busError hready (targetOf_eq_none_of_not_allowed hillegal)
  · obtain ⟨g, hg⟩ := (accessAllowed_iff_targetOf _ _ _).1 hallowed
    exact ⟨_, step_write hready hg⟩
  · exact step_write_busError hready (targetOf_eq_none_of_not_allowed hillegal)

/-- Where byte `n` of `OBUF` stands, in a configuration the block can be built for. -/
theorem targetOf_obuf_of_wf {p : Params} {a : HostAddr} {n : Nat} (hp : p.wf = true) (ha : a.toNat = 0x2000000 + n)
    (hn : n < p.obufBytes) : targetOf p .w8 a = some (.obuf n) := by
  obtain ⟨-, -, -, -, hsize, -⟩ := (wf_params_iff p).1 hp
  exact targetOf_obuf ha (by omega) hn

/-! ## Ignored writes -/

/-- A register the host cannot write takes no data (R44). -/
theorem portWrite_of_read_only {r : Reg} (h : r.access ≠ .rw) (v : Word) (s : State) :
    portWrite (.reg r) (.word v) s = s := by
  cases r with
  | cmd | inLen | inBitlen => exact absurd rfl h
  | _ => rfl

/-- `OBUF` takes no data from the host (R44). -/
theorem portWrite_obuf (n : Nat) (d : BusData) (s : State) : portWrite (.obuf n) d s = s := by
  cases d <;> rfl

/-- A write that its target ignores uses up the turn and the operation, and nothing else. -/
theorem step_write_ignored {s : State} {a : HostAddr} {d : BusData} {rest : List HostOp} {g : Target}
    (h : s.hostReady (.write a d) rest) (hg : targetOf s.params (widthOf d) a = some g)
    (hsame : portWrite g d (takeTurn s) = takeTurn s) : step s = .next (s.afterHost rest .ack) := by
  rw [step_write h hg, hsame]
  rfl

/-- Settles O10: neither a read-only register nor `OBUF` takes data, whether the block is idle or busy. -/
theorem readOnlyWriteIsIgnored : Obligations.ReadOnlyWriteIsIgnored := by
  rintro s a d rest (⟨r, v, rfl, rfl, hreadOnly⟩ | ⟨b, n, rfl, ha, hn⟩) hready
  · exact step_write_ignored hready (targetOf_regAddr s.params r) (portWrite_of_read_only hreadOnly v _)
  · have hwf : s.params.wf = true := hready.1
    exact step_write_ignored hready (targetOf_obuf_of_wf hwf ha hn) (portWrite_obuf n _ _)

/-! ## Exact reads -/

/-- A byte of `OBUF` has its exact value while the block is idle (R51). -/
theorem portRead_obuf_of_idle (n : Nat) {s : State} (h : s.status.busy = false) :
    portRead (.obuf n) s = (.byte (obufByte s n), s) := by
  simp [portRead, portReadObuf, h]

/-- Settles O11: one clause each for the registers, `IBUF` and `OBUF`. -/
theorem readsAnswerExactValues : Obligations.ReadsAnswerExactValues := by
  refine ⟨fun _ _ _ => step_read_reg_exact, fun s a n rest ha hn hready => ?_,
    fun s a n rest ha hn hready hidle => ?_⟩
  · have hwf : s.params.wf = true := hready.1
    exact step_read hready (targetOf_ibuf_of_wf hwf ha hn)
  · have hwf : s.params.wf = true := hready.1
    rw [step_read hready (targetOf_obuf_of_wf hwf ha hn), portRead_obuf_of_idle (s := takeTurn s) n hidle]
    rfl

end Sys2Proof.Machine
end

section
/-! # The operands in the buffers: the bit stream of `IBUF` (R46), and a frame that stands at its start -/

namespace Sys2Proof.Machine

/-- Bit `i` of the bit operand is bit `7 - i mod 8` of byte `i div 8` of `IBUF` (R46). -/
theorem getElem?_inputBits {s : State} {i : Nat} (h : i < s.inBitlen.toNat) :
    (inputBits s)[i]? = some ((ibufByte s (i / 8)).getLsbD (7 - i % 8)) := by
  have hbyte : i / 8 < (s.inBitlen.toNat + 7) / 8 := by omega
  rw [inputBits, List.getElem?_take_of_lt h, getElem?_bitsMsb, getElem?_readIbuf, if_pos hbyte, Nat.zero_add,
    Option.map_some]

/-- Settles O25: the length of the bit operand, and each of its bits. -/
theorem bitStreamOfTheBuffer : Obligations.BitStreamOfTheBuffer :=
  fun s => ⟨length_inputBits s, fun _ => getElem?_inputBits⟩

theorem readIbuf_append (s : State) (a m n : Nat) : readIbuf s a (m + n) = readIbuf s a m ++ readIbuf s (a + m) n := by
  rw [readIbuf, readIbuf, readIbuf, ← List.map_append, List.range'_append_1]

/-- The bit operand begins with the bits of every whole number of bytes it covers. -/
theorem inputBits_eq_append {s : State} {n : Nat} (h : 8 * n ≤ s.inBitlen.toNat) :
    ∃ tail, inputBits s = bitsMsb (readIbuf s 0 n) ++ tail := by
  obtain ⟨k, hk⟩ := Nat.exists_eq_add_of_le (show n ≤ (s.inBitlen.toNat + 7) / 8 by omega)
  have hlen : (bitsMsb (readIbuf s 0 n)).length ≤ s.inBitlen.toNat := by rwa [length_bitsMsb, length_readIbuf]
  rw [inputBits, hk, readIbuf_append, bitsMsb_append, List.take_append, List.take_of_length_le hlen]
  exact ⟨_, rfl⟩

/-- Bytes that one block puts out and another takes in. -/
theorem readIbuf_eq_readObuf {u t : State} {n : Nat} (h : ∀ a, a < n → ibufByte u a = obufByte t a) :
    readIbuf u 0 n = readObuf t 0 n := by
  refine List.map_congr_left fun i hi => h i ?_
  rw [List.mem_range'_1] at hi
  omega

end Sys2Proof.Machine
end

section
/-! # The lossless round trip: `recover` on a stream that begins with a frame, and `ENCODE` then `RECOVER` (R47, R102) -/

namespace Sys2Proof.Machine

/-! ## `recover` on a frame -/

/-- Whole bytes are packed back, and the bits after them are packed on their own. -/
theorem packMsb_bitsMsb_append_eq_append (bs : List Byte) (tail : List Bit) :
    packMsb (bitsMsb bs ++ tail) = bs ++ packMsb tail := by
  induction bs with
  | nil => rfl
  | cons b bs ih => rw [bitsMsb_cons, List.append_assoc, packMsb_byteBits_append, ih, List.cons_append]

theorem bitsMsb_encodeFrame (P : List Byte) : bitsMsb (encodeFrame P) = preambleBits ++ bitsMsb P :=
  bitsMsb_append Config.preamble P

/-- A preamble at bit 0 is the first match of the least shift (R89, R98). -/
theorem selectPreamble_preamble_append (tail : List Bit) : selectPreamble (preambleBits ++ tail) = some (0, 0) := by
  have htake : (preambleBits ++ tail).take 16 = preambleBits := List.take_left' length_preambleBits
  have hscan : scanFrom 0 (preambleBits ++ tail) = some 0 := by rw [scanFrom_step, if_pos htake]
  rw [selectPreamble, List.range_succ_eq_map, List.findSome?_cons, List.drop_zero, hscan]
  rfl

/-- The bytes recovered after a frame's preamble are the framed bytes and what the rest of the stream packs to (R92). -/
theorem recoveredBytes_framed (P : List Byte) (tail : List Bit) :
    recoveredBytes (bitsMsb (encodeFrame P) ++ tail) 0 = P ++ packMsb tail := by
  rw [recoveredBytes, bitsMsb_encodeFrame, List.append_assoc, List.drop_left' length_preambleBits,
    packMsb_bitsMsb_append_eq_append]

/-- The header of a sequence of at least six bytes does not depend on the bytes after it. -/
theorem lenFieldOf_append {P : List Byte} (h : 6 ≤ P.length) (extra : List Byte) :
    lenFieldOf (P ++ extra) = lenFieldOf P := by
  have hbyte : ∀ i, i < 6 → byteAt (P ++ extra) i = byteAt P i := fun i hi =>
    List.getD_append _ _ _ _ (Nat.lt_of_lt_of_le hi h)
  rw [lenFieldOf, lenFieldOf, hbyte 4 (by decide), hbyte 5 (by decide)]

/-- Reconciliation cuts a payload to the bytes its header declares (R95). -/
theorem reconcile_append (payload extra : List Byte) :
    (reconcile (payload ++ extra) payload.length).1 = payload := by
  unfold reconcile
  rw [List.length_append, if_neg (by omega)]
  split
  · exact List.take_left
  · have hextra : extra = [] := List.eq_nil_of_length_eq_zero (by omega)
    rw [hextra, List.append_nil]

/-- A packet whose header declares its own length is what reconciliation leaves of it and any bytes after it (R94, R95). -/
theorem reconcilePacket_append_packet (info : SyncInfo) {P : List Byte} (extra : List Byte) (hmin : 6 ≤ P.length)
    (hlen : P.length = 6 + expectedLen (lenFieldOf P)) : (reconcilePacket info (P ++ extra)).packet = P := by
  have hpayload : expectedLen (lenFieldOf P) = (P.drop 6).length := by rw [List.length_drop]; omega
  have hfixed : (reconcile ((P ++ extra).drop 6) (expectedLen (lenFieldOf (P ++ extra)))).1 = P.drop 6 := by
    rw [lenFieldOf_append hmin, List.drop_append_of_le_length hmin, hpayload, reconcile_append]
  calc (reconcilePacket info (P ++ extra)).packet
      = (P ++ extra).take 6
          ++ (reconcile ((P ++ extra).drop 6) (expectedLen (lenFieldOf (P ++ extra)))).1 := rfl
    _ = P.take 6 ++ P.drop 6 := by rw [hfixed, List.take_append_of_le_length hmin]
    _ = P := List.take_append_drop 6 P

/-- A well-formed packet, framed, comes back from the front of a stream, selected at shift 0 and bit 0 (R102). -/
theorem recoverPacket_framed {P : List Byte} (tail : List Bit) (hmin : 6 ≤ P.length)
    (hlen : P.length = 6 + expectedLen (lenFieldOf P)) :
    ∃ r, recoverPacket (bitsMsb (encodeFrame P) ++ tail) = .ok r ∧ r.packet = P ∧ r.info.shift = 0 ∧ r.info.pos = 0 := by
  have hsel : selectPreamble (bitsMsb (encodeFrame P) ++ tail) = some (0, 0) := by
    rw [bitsMsb_encodeFrame, List.append_assoc, selectPreamble_preamble_append]
  have hlong : ¬ (P ++ packMsb tail).length < Config.headerBytes := by
    rw [List.length_append, Config.headerBytes]
    omega
  refine ⟨reconcilePacket ⟨0, 0, (P ++ packMsb tail).length⟩ (P ++ packMsb tail), ?_,
    reconcilePacket_append_packet _ _ hmin hlen, rfl, rfl⟩
  simp only [recoverPacket, hsel, recoveredBytes_framed, if_neg hlong]

/-! ## The commands -/

/-- `ENCODE` inside the range of R77 (R83). -/
theorem exec_encode_of_byteLenOk {s : State} (h : byteLenOk s = true) :
    exec .encode s = .next (complete .ok (emit (encodeFrame (inputBytes s)) s)) := by
  show execEncode s = _
  rw [execEncode, if_pos h]

/-- `RECOVER` inside the range of R77, when `recover` succeeds (R99). -/
theorem exec_recover_of_ok {s : State} {r : Recovered} (h : bitLenOk s = true) (hr : recoverPacket (inputBits s) = .ok r) :
    exec .recover s = .next (complete .ok (reportRecovered r (emit r.packet s))) := by
  show execRecover s = _
  rw [execRecover, if_pos h, hr]
  rfl

/-- What `ENCODE` leaves at the start of `OBUF` is the frame of its operand (R83). -/
theorem readObuf_of_exec_encode {s t : State} (hlen : s.inLen.toNat ≤ s.params.ibufBytes)
    (h : exec .encode s = .next t) : readObuf t 0 (s.inLen.toNat + 2) = encodeFrame (inputBytes s) := by
  rw [exec_encode_of_byteLenOk ((byteLenOk_iff s).2 hlen)] at h
  cases h
  have hframe : (encodeFrame (inputBytes s)).length = s.inLen.toNat + 2 := by
    rw [length_encodeFrame, length_inputBytes]
  rw [← hframe]
  exact readObuf_emit (encodeFrame (inputBytes s)) s

/-- Settles O34: the stream of the second block begins with the frame the first one put out, and `recover` gives the packet
of such a stream back. -/
theorem encodeThenRecoverIsLossless : Obligations.EncodeThenRecoverIsLossless := by
  intro s t u _ hrange hmin hlen hencode _ hlink hbits hbitRange
  have hpacketLen : (inputBytes s).length = s.inLen.toNat := length_inputBytes s
  obtain ⟨tail, htail⟩ := inputBits_eq_append hbits
  rw [readIbuf_eq_readObuf hlink, readObuf_of_exec_encode hrange hencode] at htail
  obtain ⟨r, hrecover, hpacket, -, hpos⟩ :=
    recoverPacket_framed tail (hpacketLen.symm ▸ hmin) (hpacketLen.trans hlen)
  rw [← htail] at hrecover
  refine ⟨_, exec_recover_of_ok (decide_eq_true hbitRange) hrecover, rfl, ?_, ?_, ?_⟩
  · show BitVec.ofNat 32 r.packet.length = s.inLen
    rw [hpacket, hpacketLen, BitVec.ofNat_toNat, BitVec.setWidth_eq]
  · show readObuf (emit r.packet u) 0 s.inLen.toNat = inputBytes s
    rw [hpacket, ← hpacketLen]
    exact readObuf_emit (inputBytes s) u
  · exact congrArg (BitVec.ofNat 32) hpos

end Sys2Proof.Machine
end

section
/-! # A completed command's report stays readable until the next command (R53, R148) -/

namespace Sys2Proof.Machine

/-- What a host reads about the last command is as it was: `STATUS`, the result registers, `CMD` and the bytes of `OBUF`. -/
def State.reportKept (s t : State) : Prop :=
  t.status = s.status ∧ t.results = s.results ∧ t.cmd = s.cmd ∧ ∀ a, obufByte t a = obufByte s a

theorem State.reportKept.trans {s t u : State} (h : s.reportKept t) (h' : t.reportKept u) : s.reportKept u := by
  obtain ⟨hstatus, hresults, hcmd, hobuf⟩ := h
  obtain ⟨hstatus', hresults', hcmd', hobuf'⟩ := h'
  exact ⟨hstatus'.trans hstatus, hresults'.trans hresults, hcmd'.trans hcmd, fun a => (hobuf' a).trans (hobuf a)⟩

theorem SameBlock.reportKept {s t : State} (h : SameBlock s t) : s.reportKept t := by
  cases h
  exact ⟨rfl, rfl, rfl, fun _ => rfl⟩

/-- The one write to an idle block that reaches the report is the write of `CMD` (R71). -/
theorem WriteEffect.reportKept {s u : State} {a : HostAddr} {d : BusData} (h : WriteEffect s a d u)
    (hidle : s.status.busy = false) (hcmd : ∀ w, a = regAddr .cmd → d ≠ .word w) : s.reportKept u := by
  cases h with
  | accepted w => exact absurd rfl (hcmd w rfl)
  | dropped _ _ hbusy => exact absurd (hidle.symm.trans hbusy) (by decide)
  | ignored | storedInLen | storedInBitlen | storedByte => exact ⟨rfl, rfl, rfl, fun _ => rfl⟩

/-- Settles O51: of the effects of a step on an idle block out of reset only an accepted `CMD` write reaches the report. -/
theorem resultsStayUntilTheNextCommand : Obligations.ResultsStayUntilTheNextCommand := by
  intro s t hstep hidle hreset hnoCmd
  show s.reportKept t
  cases stepEffect_of_step hstep with
  | quiet hsame => exact hsame.reportKept
  | hostWrite a d rest u hturn _ hhost heffect hsame =>
    have hother : ∀ w, a = regAddr .cmd → d ≠ .word w := by
      rintro w rfl rfl
      exact hnoCmd w rest hturn hhost
    exact (heffect.reportKept hidle hother).trans hsame.reportKept
  | completed _ _ hbusy => exact absurd (hidle.symm.trans hbusy) (by decide)
  | resetAsserted ht => exact ht ▸ ⟨rfl, rfl, rfl, fun _ => rfl⟩
  | resetReleased _ hasserted => exact absurd (hreset.symm.trans hasserted) (by decide)

end Sys2Proof.Machine
end

section
/-! # The command word (R57 to R59): each of its 2^32 values is one command's word, or illegal for a named reason -/

namespace Sys2Proof

/-! ## The fields of a word -/

theorem opField_toNat (w : Word) : (opField w).toNat = w.toNat % 16 := by
  rw [opField, BitVec.extractLsb'_toNat, Nat.shiftRight_zero]

theorem dirField_toNat (w : Word) : (dirField w).toNat = w.toNat / 16 % 2 := by
  rw [dirField, BitVec.extractLsb'_toNat, Nat.shiftRight_eq_div_pow]

theorem rsvField_toNat (w : Word) : (rsvField w).toNat = w.toNat / 32 := by
  have hw := w.isLt
  rw [rsvField, BitVec.extractLsb'_toNat, Nat.shiftRight_eq_div_pow]
  omega

theorem cmdw_toNat (op : BitVec 4) (dir : BitVec 1) (rsv : BitVec 27) :
    (cmdw op dir rsv).toNat = op.toNat + 16 * dir.toNat + 32 * rsv.toNat := by
  rw [cmdw, Machine.toNat_append_eq_add, Machine.toNat_append_eq_add]
  omega

/-- A word is its three fields, and nothing else (R57). -/
theorem cmdw_fields (w : Word) : cmdw (opField w) (dirField w) (rsvField w) = w := by
  apply BitVec.eq_of_toNat_eq
  rw [cmdw_toNat, opField_toNat, dirField_toNat, rsvField_toNat]
  omega

/-- With no reserved bit, every `OP` and `DIR` of R58 are those of a command. -/
theorem exists_encode_of_legal_fields : ∀ (op : BitVec 4) (dir : BitVec 1), op.toNat < 4 → (dir = 1 → op.toNat = 3) →
    ∃ r ∈ opcodeRows, cmdw op dir 0 = encode r.instr := by decide

/-- The words that are no command's word, by the field that breaks R58 (R59). -/
theorem not_encode_iff_fields (w : Word) : (∀ i, w ≠ encode i) ↔
    (rsvField w ≠ 0 ∨ 4 ≤ (opField w).toNat ∨ (dirField w = 1 ∧ (opField w).toNat ≠ 3)) := by
  constructor
  · intro hno
    by_contra hlegal
    push Not at hlegal
    obtain ⟨hrsv, hop, hdir⟩ := hlegal
    obtain ⟨r, -, hr⟩ := exists_encode_of_legal_fields (opField w) (dirField w) hop hdir
    rw [← hrsv, cmdw_fields] at hr
    exact hno r.instr hr
  · rintro hillegal i rfl
    cases i <;> exact absurd hillegal (by decide)

/-! ## The decoder -/

theorem opcodeRows_exact : ∀ r ∈ opcodeRows, r.mask = BitVec.allOnes 32 ∧ r.pattern = encode r.instr := by decide

/-- A row of the table takes the word of its command and no other: it compares all 32 bits (R59). -/
theorem accepts_iff {r : OpcodeRow} (hr : r ∈ opcodeRows) (w : Word) : r.accepts w = true ↔ w = encode r.instr := by
  obtain ⟨hmask, hpattern⟩ := opcodeRows_exact r hr
  rw [OpcodeRow.accepts, hmask, hpattern, BitVec.and_allOnes, beq_iff_eq]

/-- The row that the decoder finds is the row of the word's command. -/
theorem eq_encode_of_find? {w : Word} {r : OpcodeRow} (h : opcodeRows.find? (fun q => q.accepts w) = some r) :
    w = encode r.instr := by
  have haccepts : r.accepts w = true := List.find?_some (p := fun q : OpcodeRow => q.accepts w) h
  exact (accepts_iff (List.mem_of_find?_eq_some h) w).1 haccepts

@[simp] theorem decode_encode (i : Instr) : decode (encode i) = .ok i := by cases i <;> rfl

theorem eq_encode_of_decode {w : Word} {i : Instr} (h : decode w = .ok i) : w = encode i := by
  unfold decode at h
  split at h
  · next r hfind =>
    cases h
    exact eq_encode_of_find? hfind
  · cases h

/-- A word that is no command's word is illegal, and `illegalReason` names it. -/
theorem decode_of_not_encode {w : Word} (h : ∀ i, w ≠ encode i) : decode w = .error (illegalReason w) := by
  unfold decode
  split
  · next r hfind => exact absurd (eq_encode_of_find? hfind) (h r.instr)
  · rfl

theorem decode_error_iff (w : Word) : (∃ r, decode w = .error r) ↔ ∀ i, w ≠ encode i := by
  constructor
  · rintro ⟨r, herror⟩ i rfl
    rw [decode_encode] at herror
    cases herror
  · exact fun h => ⟨_, decode_of_not_encode h⟩

theorem decodeTableWord_toNat (w : Word) : decodeTableWord 32 w.toNat = (decode w).toOption := by
  have hlt : w.toNat % 2 ^ 32 = w.toNat := Nat.mod_eq_of_lt w.isLt
  rw [decodeTableWord, hlt, if_pos w.isLt, BitVec.ofNat_toNat, BitVec.setWidth_eq]
  cases decode w <;> rfl

/-- Settles O2: each row of the table takes its command's word alone, and the words left over are those whose fields break
R58. -/
theorem decodeAndEncodeAgree : Obligations.DecodeAndEncodeAgree := by
  refine ⟨fun i _ => ⟨decode_encode i, ?_⟩, fun w i => eq_encode_of_decode,
    fun w => (decode_error_iff w).trans (not_encode_iff_fields w)⟩
  rw [decodeTableWord_toNat, decode_encode]
  rfl

/-! ## The reasons (log 16) -/

/-- A reserved bit is the reason whatever the other fields are. -/
theorem decode_of_reserved {w : Word} (hrsv : rsvField w ≠ 0) : decode w = .error .reservedBits := by
  rw [decode_of_not_encode ((not_encode_iff_fields w).2 (.inl hrsv)), illegalReason, if_pos hrsv]

/-- Without a reserved bit the opcode is the reason whatever `DIR` is. -/
theorem decode_of_badOpcode {w : Word} (hrsv : rsvField w = 0) (hop : 4 ≤ (opField w).toNat) :
    decode w = .error .badOpcode := by
  rw [decode_of_not_encode ((not_encode_iff_fields w).2 (.inr (.inl hop))), illegalReason, if_neg (not_not.2 hrsv),
    if_pos hop]

theorem decode_of_badDirection {w : Word} (hrsv : rsvField w = 0) (hop : (opField w).toNat < 3)
    (hdir : dirField w = 1) : decode w = .error .badDirection := by
  rw [decode_of_not_encode ((not_encode_iff_fields w).2 (.inr (.inr ⟨hdir, by omega⟩))), illegalReason,
    if_neg (not_not.2 hrsv), if_neg (by omega)]

/-- Settles O1: the first five words are the commands' encodings, the others are illegal by the field named. -/
theorem writtenWordsDecode : Obligations.WrittenWordsDecode :=
  ⟨decode_encode .clear, decode_encode .encode, decode_encode .recover, decode_encode .parseCmd, decode_encode .parseTlm,
    decode_of_badOpcode (by decide) (by decide), decode_of_badDirection (by decide) (by decide) (by decide),
    decode_of_badDirection (by decide) (by decide) (by decide), decode_of_reserved (by decide),
    decode_of_reserved (by decide), decode_of_reserved (by decide)⟩

end Sys2Proof
end

section
/-! # `COPYOUT` (R70): two accesses for each byte, and the loop over the bytes -/

namespace Sys2Proof.Machine

/-! ## The host's turns -/

/-- The next `n` turns of an idle block are the host's and `ts` are the turns after them: they are listed, or nothing is and
the default gives them (log 5). -/
def State.hostTurnsThen (s : State) (n : Nat) (ts : List Turn) : Prop :=
  s.turns = List.replicate n .host ++ ts ∨ (s.turns = [] ∧ ts = [])

theorem State.hostTurnsThen.turns_eq {s : State} {ts : List Turn} (h : s.hostTurnsThen 0 ts) : s.turns = ts := by
  rcases h with hlisted | ⟨hnone, rfl⟩
  · exact hlisted
  · exact hnone

/-- The turn that `s` takes leaves one turn fewer. -/
theorem State.hostTurnsThen.of_tail {s t : State} {n : Nat} {ts : List Turn} (h : s.hostTurnsThen (n + 1) ts)
    (ht : t.turns = s.turns.tail) : t.hostTurnsThen n ts := by
  rcases h with hlisted | ⟨hnone, rfl⟩
  · exact .inl (by rw [ht, hlisted]; rfl)
  · exact .inr ⟨by rw [ht, hnone]; rfl, rfl⟩

theorem State.hostTurnsThen.currentTurn_eq {s : State} {n : Nat} {ts : List Turn} (h : s.hostTurnsThen (n + 1) ts)
    (hidle : s.status.busy = false) : currentTurn s = .host := by
  rcases h with hlisted | ⟨hnone, -⟩
  · rw [currentTurn, hlisted]
    rfl
  · simp [currentTurn, hnone, defaultTurn, hidle]

/-! ## One byte -/

/-- The read of one byte of `COPYOUT` answers the byte of `OBUF`, and its write to `IBUF` is the next operation. -/
theorem step_copy_of_idle {s : State} {a : Nat} {rest : List HostOp}
    (h : s.hostReady (.copy (obufAddr a) (ibufAddr a)) rest) (hidle : s.status.busy = false)
    (ha : a < s.params.ibufBytes) :
    step s = .next (s.afterHost (.write (ibufAddr a) (.byte (obufByte s a)) :: rest) (.data (.byte (obufByte s a)))) := by
  have hwf : s.params.wf = true := h.1
  obtain ⟨-, hibuf, -, hroom, -⟩ := (wf_params_iff s.params).1 hwf
  have hg : targetOf s.params .w8 (obufAddr a) = some (.obuf a) :=
    targetOf_obuf_of_wf hwf (obufAddr_toNat (by omega)) (by omega)
  rw [step_of_hostReady h, hostAccess_copy (s := takeTurn s) hg, portRead_obuf_of_idle (s := takeTurn s) a hidle]
  rfl

/-- A write of a byte of `IBUF` on an idle block. -/
theorem step_writeByte_of_idle {s : State} {a : Nat} {b : Byte} {rest : List HostOp}
    (h : s.hostReady (.write (ibufAddr a) (.byte b)) rest) (hidle : s.status.busy = false)
    (ha : a < s.params.ibufBytes) : step s = .next ((writeIbuf a b s).afterHost rest .ack) := by
  have hwf : s.params.wf = true := h.1
  obtain ⟨-, hibuf, -⟩ := (wf_params_iff s.params).1 hwf
  have hg : targetOf s.params .w8 (ibufAddr a) = some (.ibuf a) :=
    targetOf_ibuf_of_wf hwf (ibufAddr_toNat (by omega)) ha
  rw [step_write h hg, portWrite_ibuf_of_idle (s := takeTurn s) a b hidle]
  rfl

/-- The state after `COPYOUT` copied byte `a`: two turns are used up, and `rest` is left to do. -/
def State.afterCopy (s : State) (a : Nat) (rest : List HostOp) : State :=
  { writeIbuf a (obufByte s a) s with turns := s.turns.tail.tail, host := rest, port := .ack }

theorem ibufByte_afterCopy (s : State) (a : Nat) (rest : List HostOp) (x : Nat) :
    ibufByte (s.afterCopy a rest) x = if x = a then obufByte s a else ibufByte s x :=
  ibufByte_writeIbuf a (obufByte s a) s x

/-- One byte of `COPYOUT` is two steps (log 19). -/
theorem run_copy_byte {s : State} {a n : Nat} {rest : List HostOp} {ts : List Turn} (hwf : s.params.wf = true)
    (hreset : s.inReset = false) (hidle : s.status.busy = false) (hturns : s.hostTurnsThen (n + 2) ts)
    (ha : a < s.params.ibufBytes) (hhost : s.host = .copy (obufAddr a) (ibufAddr a) :: rest) :
    Host.Core.run Sys2Proof.core (n + 2) s = Host.Core.run Sys2Proof.core n (s.afterCopy a rest) := by
  have hread := step_copy_of_idle ⟨hwf, hreset, hturns.currentTurn_eq hidle, hhost⟩ hidle ha
  rw [run_succ_of_next (n + 1) hread]
  have hturns' := hturns.of_tail (t := s.afterHost (.write (ibufAddr a) (.byte (obufByte s a)) :: rest)
    (.data (.byte (obufByte s a)))) rfl
  exact run_succ_of_next n (step_writeByte_of_idle ⟨hwf, hreset, hturns'.currentTurn_eq hidle, rfl⟩ hidle ha)

/-! ## The loop -/

/-- The operations that copy the `m` bytes from offset `k` on. -/
def copyOps (k m : Nat) : List HostOp := (List.range' k m).map fun a => .copy (obufAddr a) (ibufAddr a)

theorem assembleLine_copyout (n : Nat) : assembleLine (.copyout n) = copyOps 0 n := by
  rw [assembleLine, copyOps, List.range_eq_range']

theorem copyOps_succ (k m : Nat) :
    copyOps k (m + 1) = .copy (obufAddr k) (ibufAddr k) :: copyOps (k + 1) m := rfl

/-- Bytes `k` to `k + m - 1` are copied in `2m` steps, and nothing else in the block changes. -/
theorem run_copyOps (m : Nat) {s : State} {k : Nat} {rest : List HostOp} {ts : List Turn} (hwf : s.params.wf = true)
    (hreset : s.inReset = false) (hidle : s.status.busy = false) (hturns : s.hostTurnsThen (2 * m) ts)
    (hsize : k + m ≤ s.params.ibufBytes) (hhost : s.host = copyOps k m ++ rest) :
    ∃ t : State, Host.Core.run Sys2Proof.core (2 * m) s = .next t ∧
      (∀ a, ibufByte t a = if k ≤ a ∧ a < k + m then obufByte s a else ibufByte s a) ∧
      t = { s with ibuf := t.ibuf, host := rest, turns := ts, port := t.port } := by
  induction m generalizing s k with
  | zero =>
    have hdone : s.host = rest := hhost
    refine ⟨s, rfl, fun a => by rw [if_neg (by omega)], ?_⟩
    rw [← hdone, ← hturns.turns_eq]
  | succ m ih =>
    obtain ⟨t, hrun, hbytes, hframe⟩ := ih (s := s.afterCopy k (copyOps (k + 1) m ++ rest)) (k := k + 1) hwf hreset
      hidle ((hturns.of_tail (t := takeTurn s) rfl).of_tail rfl) (show k + 1 + m ≤ s.params.ibufBytes by omega) rfl
    refine ⟨t, ?_, fun a => ?_, hframe⟩
    · rw [← hrun]
      exact run_copy_byte hwf hreset hidle hturns (by omega) hhost
    · have hobuf : obufByte (s.afterCopy k (copyOps (k + 1) m ++ rest)) a = obufByte s a := rfl
      rw [hbytes, hobuf, ibufByte_afterCopy]
      by_cases hk : a = k
      · rw [if_neg (by omega), if_pos hk, if_pos (by omega), hk]
      · have hrange : (k + 1 ≤ a ∧ a < k + 1 + m) ↔ (k ≤ a ∧ a < k + (m + 1)) := by omega
        simp only [hk, hrange, if_false]

/-- Settles O13: the loop over all `n` bytes from offset 0. -/
theorem copyOutCopiesTheOutput : Obligations.CopyOutCopiesTheOutput := by
  intro s n rest ts hwf hreset hidle hturns hsize hhost
  rw [assembleLine_copyout] at hhost
  obtain ⟨t, hrun, hbytes, hframe⟩ := run_copyOps n hwf hreset hidle hturns (by omega) hhost
  refine ⟨t, hrun, by rw [hframe], fun a => ?_, hframe⟩
  simp [hbytes a]

end Sys2Proof.Machine
end

section
/-! # The command lifecycle (R71 to R76): acceptance by a `CMD` write, and one completion step -/

namespace Sys2Proof.Machine

/-! ## Acceptance -/

theorem portWrite_cmd_of_idle (w : Word) {s : State} (h : s.status.busy = false) :
    portWrite (.reg .cmd) (.word w) s = accept w s := by
  simp [portWrite, portWriteReg, h]

/-- A `CMD` write that the port answers while the block is idle is accepted (R71). -/
theorem step_cmd_of_idle {s : State} {w : Word} {rest : List HostOp}
    (h : s.hostReady (.write (regAddr .cmd) (.word w)) rest) (hidle : s.status.busy = false) :
    step s = .next ((accept w s).afterHost rest .ack) := by
  rw [step_write h (targetOf_regAddr s.params .cmd), portWrite_cmd_of_idle (s := takeTurn s) w hidle]
  rfl

/-- The registers that the start actions zero are those the map marks as results (R15, R73). -/
theorem readReg_of_results_zero {r : Reg} {s : State} (hr : r.isResult = true) (hs : s.results = Results.zero) :
    readReg r s = 0 := by
  cases r with
  | cmd | status | inLen | inBitlen | ibufSize | obufSize | cmdTextOfs | markerLen => cases hr
  | outLen | syncInfo | syncPos | recovLen | expLen | actLen | streamId | seqCtl | lenField | apid | seqCount | cmdCode
  | seqId | pflags | textLen => rw [readReg, hs]; rfl

/-- Settles O6: the accepted write is `accept` with the host's turn used up, and `accept` zeroes the result registers. -/
theorem cmdWriteStartsCommand : Obligations.CmdWriteStartsCommand :=
  fun _ _ _ h hidle => ⟨step_cmd_of_idle h hidle, fun _ hr => readReg_of_results_zero hr rfl⟩

/-! ## Completion -/

/-- The engine's turn on a command in flight is the completion step of the latched word (R74). -/
theorem step_of_engineTurnReady {s : State} (h : s.engineTurnReady) : step s = completionStep (takeTurn s) := by
  obtain ⟨hwf, hreset, hturn, hbusy⟩ := h
  rw [step_of_engine hwf hturn, engineTurn, if_pos ⟨hbusy, by simp [hreset]⟩]

theorem completionStep_of_decode {s : State} {i : Instr} (h : decode s.cmd = .ok i) : completionStep s = exec i s := by
  rw [completionStep, h]

/-- A latched word that no command encodes to ends with `ILLEGAL_CMD` and writes nothing else (R59, R75). -/
theorem completionStep_of_not_encode {s : State} (h : ∀ i, s.cmd ≠ encode i) :
    completionStep s = .next (complete .illegalCmd s) := by
  rw [completionStep, decode_of_not_encode h]
  rfl

/-- Settles O15: the engine's turn completes the latched word, and the word's command is the one it decodes to. -/
theorem stepRunsTheLatchedCommand : Obligations.StepRunsTheLatchedCommand :=
  fun s _ h hdecode _ => (step_of_engineTurnReady h).trans (completionStep_of_decode (s := takeTurn s) hdecode)

/-- A completion step writes `STATUS`, the result registers and `OBUF`, and nothing else (R74, R49). -/
theorem CompletedFrom.engineFrame {s t : State} (h : CompletedFrom s t) : s.engineFrame t := by
  cases h <;> exact ⟨rfl, rfl, rfl, rfl, rfl, rfl, rfl, rfl, rfl, rfl, rfl⟩

/-- Settles O16: every command's completion step is one of the cases of `CompletedFrom`. -/
theorem everyCommandCompletes : Obligations.EveryCommandCompletes := by
  intro i s
  obtain ⟨t, hexec, hc⟩ := exec_completes i s
  exact ⟨t, hexec, hc.status_eq, hc.engineFrame⟩

/-! ## A word written and completed -/

/-- The state in which the completion step of a written word runs: the word is accepted, and both the host's turn and the
engine's are used up. -/
def State.afterCmdWrite (s : State) (w : Word) (rest : List HostOp) (ts : List Turn) : State :=
  { accept w s with turns := ts, host := rest, port := .ack }

/-- The host writes `CMD` on an idle block, then the engine moves: the second step is the completion step of the word. -/
theorem steps_of_cmd_write {s : State} {w : Word} {rest : List HostOp} {ts : List Turn}
    (h : s.hostReady (.write (regAddr .cmd) (.word w)) rest) (hidle : s.status.busy = false)
    (hturns : s.turns = .host :: .engine :: ts) :
    ∃ u, step s = .next u ∧ step u = completionStep (s.afterCmdWrite w rest ts) := by
  have haccepted := step_cmd_of_idle h hidle
  obtain ⟨hwf, hreset, -, -⟩ := h
  have htail : ((accept w s).afterHost rest .ack).turns = .engine :: ts := by
    rw [State.afterHost, accept_turns, hturns]
    rfl
  have hturn : currentTurn ((accept w s).afterHost rest .ack) = .engine := by
    rw [currentTurn, htail]
    rfl
  have htaken : takeTurn ((accept w s).afterHost rest .ack) = s.afterCmdWrite w rest ts := by
    rw [takeTurn, htail]
    rfl
  exact ⟨_, haccepted, htaken ▸ step_of_engineTurnReady ⟨hwf, hreset, hturn, rfl⟩⟩

/-- `CLEAR` has no computation: it ends the command with `OK` (R76). -/
theorem exec_clear (s : State) : exec .clear s = .next (complete .ok s) := rfl

/-- Settles O17: the acceptance zeroes the result registers, and the completion step writes `STATUS` alone. -/
theorem clearZeroesResults : Obligations.ClearZeroesResults := by
  refine ⟨rfl, exec_clear, fun s rest ts h hidle hturns => ?_⟩
  obtain ⟨u, haccept, hcomplete⟩ := steps_of_cmd_write h hidle hturns
  have hclear : completionStep (s.afterCmdWrite 0x00000000#32 rest ts) = exec .clear _ :=
    completionStep_of_decode (decode_encode .clear)
  have hstatus : statusWord { done := true, busy := false, collide := false, code := .ok } = 0x00000001#32 := by decide
  exact ⟨u, _, haccept, hcomplete.trans (hclear.trans (exec_clear _)), hstatus, rfl⟩

/-- Settles O18: the word is none of the five encodings, so its completion step writes `STATUS` alone. -/
theorem illegalWordCompletes : Obligations.IllegalWordCompletes := by
  intro s w rest ts hclear hencode hrecover hparseCmd hparseTlm h hidle hturns
  have hillegal : ∀ i, w ≠ encode i := by
    intro i
    cases i with
    | clear => exact hclear
    | encode => exact hencode
    | recover => exact hrecover
    | parseCmd => exact hparseCmd
    | parseTlm => exact hparseTlm
  obtain ⟨u, haccept, hcomplete⟩ := steps_of_cmd_write h hidle hturns
  have hstatus : statusWord { done := true, busy := false, collide := false, code := .illegalCmd } = 0x00000401#32 := by
    decide
  exact ⟨u, _, haccept, hcomplete.trans (completionStep_of_not_encode hillegal), hstatus, rfl⟩

end Sys2Proof.Machine
end

section
/-! # A command's outcome depends on its inputs only (R79): equal operands give equal codes, reports and outputs -/

namespace Sys2Proof.Machine

/-! ## Equal operands -/

theorem byteLenOk_congr {s u : State} (hparams : s.params = u.params) (hlen : s.inLen = u.inLen) :
    byteLenOk s = byteLenOk u := by
  rw [byteLenOk, byteLenOk, hparams, hlen]

theorem bitLenOk_congr {s u : State} (hparams : s.params = u.params) (hlen : s.inBitlen = u.inBitlen) :
    bitLenOk s = bitLenOk u := by
  rw [bitLenOk, bitLenOk, hparams, hlen]

theorem inputBytes_congr {s u : State} (hlen : s.inLen = u.inLen)
    (hbytes : ∀ a, a < s.inLen.toNat → ibufByte s a = ibufByte u a) : inputBytes s = inputBytes u := by
  rw [inputBytes, inputBytes, ← hlen]
  exact readIbuf_congr fun i _ hi => hbytes i (by omega)

/-- The bit operand reads the bytes that hold one of its bits, the last of them perhaps in part. -/
theorem inputBits_congr {s u : State} (hlen : s.inBitlen = u.inBitlen)
    (hbytes : ∀ a, 8 * a < s.inBitlen.toNat → ibufByte s a = ibufByte u a) : inputBits s = inputBits u := by
  have hread : readIbuf s 0 ((s.inBitlen.toNat + 7) / 8) = readIbuf u 0 ((s.inBitlen.toNat + 7) / 8) :=
    readIbuf_congr fun i _ hi => hbytes i (by omega)
  rw [inputBits, inputBits, ← hlen, hread]

/-! ## Equal reports -/

/-- The result registers agree, and so do the output bytes they announce. -/
def State.sameReport (s u : State) : Prop :=
  s.results = u.results ∧ ∀ a, a < s.results.outLen.toNat → obufByte s a = obufByte u a

/-- Two commands ended with the same code and the same report (R79). -/
def State.sameOutcome (s u : State) : Prop := s.status.code = u.status.code ∧ s.sameReport u

/-- After an acceptance no output is announced, whatever `OBUF` holds. -/
theorem sameReport_of_results_zero {s u : State} (hs : s.results = Results.zero) (hu : u.results = Results.zero) :
    s.sameReport u := by
  refine ⟨hs.trans hu.symm, fun a ha => ?_⟩
  rw [hs] at ha
  exact absurd ha (Nat.not_lt_zero a)

/-- An output writes every byte that it announces. -/
theorem sameReport_emit (bs : List Byte) {s u : State} (h : s.results = u.results) :
    (emit bs s).sameReport (emit bs u) := by
  refine ⟨by rw [emit_results, emit_results, h], fun a ha => ?_⟩
  have hinside : a < bs.length := Nat.lt_of_lt_of_le ha (toNat_ofNat_le 32 bs.length)
  rw [obufByte_emit, obufByte_emit, dif_pos hinside, dif_pos hinside]

theorem State.sameReport.reportShortSync {s u : State} (h : s.sameReport u) (info : SyncInfo) :
    (reportShortSync info s).sameReport (reportShortSync info u) := by
  obtain ⟨hresults, hobuf⟩ := h
  exact ⟨by simp only [Machine.reportShortSync, hresults], hobuf⟩

theorem State.sameReport.reportRecovered {s u : State} (h : s.sameReport u) (r : Recovered) :
    (reportRecovered r s).sameReport (reportRecovered r u) := by
  obtain ⟨hresults, hobuf⟩ := h
  exact ⟨by simp only [Machine.reportRecovered, hresults], hobuf⟩

theorem State.sameReport.reportParsed {s u : State} (h : s.sameReport u) (f : ParsedFields) :
    (reportParsed f s).sameReport (reportParsed f u) := by
  obtain ⟨hresults, hobuf⟩ := h
  exact ⟨by simp only [Machine.reportParsed, hresults], hobuf⟩

theorem State.sameReport.complete {s u : State} (h : s.sameReport u) (c : Code) :
    (complete c s).sameOutcome (complete c u) :=
  ⟨rfl, h⟩

/-! ## The commands -/

theorem finishRecover_sameOutcome (r : Except SyncFailure Recovered) {s u : State} (hs : s.results = Results.zero)
    (hu : u.results = Results.zero) : (finishRecover r s).sameOutcome (finishRecover r u) := by
  have hzero := sameReport_of_results_zero hs hu
  cases r with
  | error e =>
    cases e with
    | preambleNotFound => exact hzero.complete .preambleNotFound
    | headerTooShort info => exact (hzero.reportShortSync info).complete .syncHeaderTooShort
  | ok r => exact ((sameReport_emit r.packet hzero.1).reportRecovered r).complete .ok

theorem finishParse_sameOutcome (r : Except ParseFailure ParsedFields) {s u : State} (hs : s.results = Results.zero)
    (hu : u.results = Results.zero) : (finishParse r s).sameOutcome (finishParse r u) := by
  have hzero := sameReport_of_results_zero hs hu
  cases r with
  | error e => cases e; exact hzero.complete .parseHeaderTooShort
  | ok f => exact ((sameReport_emit f.text hzero.1).reportParsed f).complete .ok

/-- Both steps go on, and their outcomes agree. -/
def outcomesAgree (o o' : Host.Outcome State Fault Refusal) : Prop :=
  ∃ s u, o = .next s ∧ o' = .next u ∧ s.sameOutcome u

theorem outcomesAgree_next {s u : State} (h : s.sameOutcome u) : outcomesAgree (.next s) (.next u) :=
  ⟨s, u, rfl, rfl, h⟩

theorem execEncode_outcomesAgree {s u : State} (hs : s.results = Results.zero) (hu : u.results = Results.zero)
    (hin : inputsAgree .encode s u) : outcomesAgree (execEncode s) (execEncode u) := by
  obtain ⟨hparams, hlen, hbytes⟩ := hin
  rw [execEncode, execEncode, ← byteLenOk_congr hparams hlen, ← inputBytes_congr hlen hbytes]
  split
  · exact outcomesAgree_next ((sameReport_emit _ (hs.trans hu.symm)).complete .ok)
  · exact outcomesAgree_next ((sameReport_of_results_zero hs hu).complete .lenRange)

theorem execRecover_outcomesAgree {s u : State} (hs : s.results = Results.zero) (hu : u.results = Results.zero)
    (hin : inputsAgree .recover s u) : outcomesAgree (execRecover s) (execRecover u) := by
  obtain ⟨hparams, hlen, hbytes⟩ := hin
  rw [execRecover, execRecover, ← bitLenOk_congr hparams hlen, ← inputBits_congr hlen hbytes]
  split
  · exact outcomesAgree_next (finishRecover_sameOutcome _ hs hu)
  · exact outcomesAgree_next ((sameReport_of_results_zero hs hu).complete .lenRange)

/-- Both `PARSE` forms read the same inputs (R118, R119). -/
theorem parseCommand_outcomesAgree (dir : Direction) {s u : State} (hs : s.results = Results.zero)
    (hu : u.results = Results.zero) (hin : inputsAgree .parseCmd s u) :
    outcomesAgree (parseCommand dir s) (parseCommand dir u) := by
  obtain ⟨hparams, hlen, hbytes⟩ := hin
  rw [parseCommand, parseCommand, ← byteLenOk_congr hparams hlen, ← inputBytes_congr hlen hbytes, ← hparams]
  split
  · exact outcomesAgree_next (finishParse_sameOutcome _ hs hu)
  · exact outcomesAgree_next ((sameReport_of_results_zero hs hu).complete .lenRange)

/-- One case for each command, by what it reads. -/
theorem exec_outcomesAgree (i : Instr) {s u : State} (hs : s.results = Results.zero) (hu : u.results = Results.zero)
    (hin : inputsAgree i s u) : outcomesAgree (exec i s) (exec i u) := by
  cases i with
  | clear => exact outcomesAgree_next ((sameReport_of_results_zero hs hu).complete .ok)
  | encode => exact execEncode_outcomesAgree hs hu hin
  | recover => exact execRecover_outcomesAgree hs hu hin
  | parseCmd => exact parseCommand_outcomesAgree .cmd hs hu hin
  | parseTlm => exact parseCommand_outcomesAgree .tlm hs hu hin

/-- Settles O21: equal inputs give equal operands, and from zeroed result registers each command makes its report and its
output from its operand alone. -/
theorem outcomeDependsOnInputsOnly : Obligations.OutcomeDependsOnInputsOnly := by
  intro i s u s' u' hs hu hin hexec hexec'
  obtain ⟨t, t', ht, ht', hsame⟩ := exec_outcomesAgree i hs hu hin
  rw [hexec] at ht
  rw [hexec'] at ht'
  cases ht
  cases ht'
  exact hsame

end Sys2Proof.Machine
end

section
/-! # The frame encoder (R81 to R83): the bytes of a frame, and what `ENCODE` leaves in `OBUF` and `OUT_LEN` -/

namespace Sys2Proof.Machine

/-! ## The frame -/

/-- The payload stands after the two bytes of the preamble (R81). -/
theorem getElem?_encodeFrame_add_two (P : List Byte) (i : Nat) : (encodeFrame P)[i + 2]? = P[i]? := rfl

theorem encodeFrame_injective {P Q : List Byte} (h : encodeFrame P = encodeFrame Q) : P = Q :=
  List.append_cancel_left h

/-- The first 16 bits of a frame are the pattern the synchronizer searches (R81, R87). -/
theorem take_bitsMsb_encodeFrame (P : List Byte) : (bitsMsb (encodeFrame P)).take 16 = preambleBits := by
  rw [bitsMsb_encodeFrame]
  exact List.take_left' length_preambleBits

/-- Settles O22: a frame is the preamble and then the payload, as bytes and as bits. -/
theorem frameProperties : Obligations.FrameProperties :=
  ⟨fun P => ⟨length_encodeFrame P, rfl, rfl, getElem?_encodeFrame_add_two P, take_bitsMsb_encodeFrame P⟩,
    fun _ _ => encodeFrame_injective⟩

/-! ## The output buffer -/

theorem getElem?_inputBytes (s : State) (i : Nat) :
    (inputBytes s)[i]? = if i < s.inLen.toNat then some (ibufByte s i) else none := by
  rw [inputBytes, getElem?_readIbuf, Nat.zero_add]

theorem obufByte_emit_eq_getD (bs : List Byte) (s : State) (a : Nat) :
    obufByte (emit bs s) a = bs[a]?.getD (obufByte s a) := by
  rw [obufByte_emit]
  split
  case isTrue h => rw [List.getElem?_eq_getElem h, Option.getD_some]
  case isFalse h => rw [List.getElem?_eq_none (Nat.le_of_not_lt h), Option.getD_none]

/-- `OBUF` after the frame of the byte operand: the preamble, the bytes of `IBUF`, and behind them what was there (R83). -/
theorem obufByte_emit_encodeFrame (s : State) (a : Nat) :
    obufByte (emit (encodeFrame (inputBytes s)) s) a =
      if a < 2 then 0xAA#8 else if a < s.inLen.toNat + 2 then ibufByte s (a - 2) else obufByte s a := by
  rw [obufByte_emit_eq_getD]
  match a with
  | 0 | 1 => rfl
  | i + 2 =>
    rw [getElem?_encodeFrame_add_two, getElem?_inputBytes, if_neg (by omega : ¬ i + 2 < 2), Nat.add_sub_cancel]
    by_cases hin : i < s.inLen.toNat
    · rw [if_pos hin, if_pos (Nat.add_lt_add_right hin 2), Option.getD_some]
    · rw [if_neg hin, if_neg (mt Nat.lt_of_add_lt_add_right hin), Option.getD_none]

/-! ## The command -/

/-- `ENCODE` outside the range of R77 (R83). -/
theorem exec_encode_of_long {s : State} (h : s.params.ibufBytes < s.inLen.toNat) :
    exec .encode s = .next (complete .lenRange s) := by
  have hlen : ¬ byteLenOk s = true := by rw [byteLenOk_iff]; omega
  show execEncode s = _
  rw [execEncode, if_neg hlen]
  rfl

/-- In a configuration of R6 the length of a frame of `IBUF` fits `OUT_LEN`. -/
theorem frameLength_lt {s : State} (hp : s.params.wf = true) (hlen : s.inLen.toNat ≤ s.params.ibufBytes) :
    s.inLen.toNat + 2 < 2 ^ 32 := by
  obtain ⟨-, hibuf, -⟩ := (wf_params_iff s.params).1 hp
  omega

/-- Settles O23: inside the range the command puts out the frame of its operand, and outside it writes `STATUS` alone. -/
theorem encodeWritesTheFrame : Obligations.EncodeWritesTheFrame := by
  refine ⟨by decide, fun s => ⟨fun hlen => ?_, exec_encode_of_long⟩⟩
  have hok : byteLenOk s = true := (byteLenOk_iff s).2 hlen
  have hframe : (encodeFrame (inputBytes s)).length = s.inLen.toNat + 2 := by
    rw [length_encodeFrame, length_inputBytes]
  have hresults : (emit (encodeFrame (inputBytes s)) s).results =
      { s.results with outLen := BitVec.ofNat 32 (s.inLen.toNat + 2) } := by rw [emit_results, hframe]
  refine ⟨_, exec_encode_of_byteLenOk hok, hresults, fun hp => ?_, rfl, obufByte_emit_encodeFrame s,
    (CompletedFrom.frame hok).engineFrame⟩
  rw [complete_results, hresults]
  exact toNat_ofNat_of_lt (frameLength_lt hp hlen)

end Sys2Proof.Machine
end

section
/-! # The preamble search (R87 to R91, R98): one shift's scan, and the selection among the shifts -/

namespace Sys2Proof.Machine

/-! ## Matches and candidates -/

/-- Sixteen bits that equal the pattern all lie inside the stream, so R87's bound need not be tested apart. -/
theorem matchAt_iff (b : List Bit) (p : Nat) : matchAt b p ↔ (b.drop p).take 16 = preambleBits := by
  refine ⟨fun ⟨_, hbits⟩ => hbits, fun hbits => ⟨?_, hbits⟩⟩
  by_contra hshort
  exact take_sixteen_ne_of_short (by rw [List.length_drop]; omega) hbits

theorem matchAt_append_preamble (J tail : List Bit) : matchAt (J ++ (preambleBits ++ tail)) J.length := by
  rw [matchAt_iff, List.drop_left, List.take_left' length_preambleBits]

/-- The candidates of a shift are the shift itself, if 16 bits follow it, and those of the stream eight bits on (R88). -/
theorem candidate_iff (b : List Bit) (s p : Nat) :
    candidate b s p ↔ (p = s ∧ s + 16 ≤ b.length) ∨ candidate b (s + 8) p := by
  constructor
  · rintro ⟨k, rfl, hlen⟩
    cases k with
    | zero => exact .inl ⟨by omega, by omega⟩
    | succ k => exact .inr ⟨k, by omega, by omega⟩
  · rintro (⟨rfl, hlen⟩ | ⟨k, rfl, hlen⟩)
    · exact ⟨0, by omega, by omega⟩
    · exact ⟨k + 1, by omega, by omega⟩

theorem candidate.le {b : List Bit} {s p : Nat} (h : candidate b s p) : s ≤ p := by
  obtain ⟨k, rfl, -⟩ := h
  omega

theorem candidate_self_of_matchAt {b : List Bit} {p : Nat} (h : matchAt b p) : candidate b p p :=
  (candidate_iff b p p).2 (.inl ⟨rfl, h.1⟩)

/-! ## The scan of one shift -/

/-- No candidate of shift `s` is a match. -/
def unmatchedShift (b : List Bit) (s : Nat) : Prop := ∀ p, candidate b s p → ¬ matchAt b p

/-- The least candidate of shift `s` that is a match (R89). -/
def firstMatch (b : List Bit) (s p : Nat) : Prop :=
  candidate b s p ∧ matchAt b p ∧ ∀ p', p' < p → candidate b s p' → ¬ matchAt b p'

theorem firstMatch_self {b : List Bit} {s : Nat} (h : matchAt b s) : firstMatch b s s :=
  ⟨candidate_self_of_matchAt h, h, fun _ hlt hcand => absurd hcand.le (Nat.not_le.2 hlt)⟩

theorem firstMatch.of_add_eight {b : List Bit} {s p : Nat} (h : firstMatch b (s + 8) p) (hs : ¬ matchAt b s) :
    firstMatch b s p := by
  obtain ⟨hcand, hmatch, hleast⟩ := h
  refine ⟨(candidate_iff b s p).2 (.inr hcand), hmatch, fun p' hlt hcand' => ?_⟩
  rcases (candidate_iff b s p').1 hcand' with ⟨rfl, -⟩ | hlater
  · exact hs
  · exact hleast p' hlt hlater

theorem unmatchedShift.of_add_eight {b : List Bit} {s : Nat} (h : unmatchedShift b (s + 8)) (hs : ¬ matchAt b s) :
    unmatchedShift b s := by
  intro p hcand
  rcases (candidate_iff b s p).1 hcand with ⟨rfl, -⟩ | hlater
  · exact hs
  · exact h p hlater

theorem unmatchedShift_of_short {b : List Bit} {s : Nat} (h : b.length < s + 16) : unmatchedShift b s := by
  rintro _ ⟨k, rfl, hlen⟩ -
  omega

theorem firstMatch.unique {b : List Bit} {s p q : Nat} (hp : firstMatch b s p) (hq : firstMatch b s q) : p = q := by
  obtain ⟨hcandp, hmatchp, hleastp⟩ := hp
  obtain ⟨hcandq, hmatchq, hleastq⟩ := hq
  rcases Nat.lt_trichotomy p q with hlt | heq | hgt
  · exact absurd hmatchp (hleastq p hlt hcandp)
  · exact heq
  · exact absurd hmatchq (hleastp q hgt hcandq)

theorem scanFrom_drop_of_matchAt {b : List Bit} {s : Nat} (h : matchAt b s) : scanFrom s (b.drop s) = some s := by
  rw [scanFrom_step, if_pos ((matchAt_iff b s).1 h)]

theorem scanFrom_drop_of_not_matchAt {b : List Bit} {s : Nat} (h : ¬ matchAt b s) :
    scanFrom s (b.drop s) = if 8 ≤ b.length - s then scanFrom (s + 8) (b.drop (s + 8)) else none := by
  rw [scanFrom_step, if_neg (mt (matchAt_iff b s).2 h), List.length_drop, List.drop_drop]

/-- The scan answers the first match of its shift, and nothing exactly when there is none: each step tests one candidate
and leaves a stream eight bits shorter. -/
theorem scanFrom_drop_spec (b : List Bit) (s : Nat) :
    (scanFrom s (b.drop s) = none ∧ unmatchedShift b s) ∨ ∃ p, scanFrom s (b.drop s) = some p ∧ firstMatch b s p := by
  by_cases hmatch : matchAt b s
  · exact .inr ⟨s, scanFrom_drop_of_matchAt hmatch, firstMatch_self hmatch⟩
  rw [scanFrom_drop_of_not_matchAt hmatch]
  by_cases hlong : 8 ≤ b.length - s
  · rw [if_pos hlong]
    rcases scanFrom_drop_spec b (s + 8) with ⟨hnone, hlater⟩ | ⟨p, hsome, hlater⟩
    · exact .inl ⟨hnone, hlater.of_add_eight hmatch⟩
    · exact .inr ⟨p, hsome, hlater.of_add_eight hmatch⟩
  · exact .inl ⟨if_neg hlong, unmatchedShift_of_short (by omega)⟩
termination_by b.length - s

theorem scanFrom_eq_none_iff (b : List Bit) (s : Nat) : scanFrom s (b.drop s) = none ↔ unmatchedShift b s := by
  rcases scanFrom_drop_spec b s with ⟨hnone, hshift⟩ | ⟨p, hsome, hcand, hmatch, -⟩
  · exact ⟨fun _ => hshift, fun _ => hnone⟩
  · rw [hsome]
    exact ⟨fun h => (nomatch h), fun h => absurd hmatch (h p hcand)⟩

theorem scanFrom_eq_some_iff (b : List Bit) (s p : Nat) : scanFrom s (b.drop s) = some p ↔ firstMatch b s p := by
  rcases scanFrom_drop_spec b s with ⟨hnone, hshift⟩ | ⟨q, hsome, hfirst⟩
  · rw [hnone]
    exact ⟨fun h => (nomatch h), fun ⟨hcand, hmatch, _⟩ => absurd hmatch (hshift p hcand)⟩
  · rw [hsome, Option.some_inj]
    exact ⟨fun heq => heq ▸ hfirst, fun hp => hfirst.unique hp⟩

/-! ## The selection -/

/-- Searching the numbers below `n` in order finds the least one that has an answer. -/
theorem findSome?_range_eq_some_iff {α : Type} (f : Nat → Option α) (n : Nat) (a : α) :
    (List.range n).findSome? f = some a ↔ ∃ i, i < n ∧ f i = some a ∧ ∀ j, j < i → f j = none := by
  induction n with
  | zero => simp
  | succ n ih =>
    rw [List.range_succ, List.findSome?_append, Option.or_eq_some_iff, ih, List.findSome?_eq_none_iff]
    constructor
    · rintro (⟨i, hi, hfound, hleast⟩ | ⟨hnone, hlast⟩)
      · exact ⟨i, by omega, hfound, hleast⟩
      · exact ⟨n, by omega, by simpa using hlast, fun j hj => hnone j (List.mem_range.2 hj)⟩
    · rintro ⟨i, hi, hfound, hleast⟩
      rcases Nat.lt_succ_iff_lt_or_eq.1 hi with hlt | rfl
      · exact .inl ⟨i, hlt, hfound, hleast⟩
      · exact .inr ⟨fun j hj => hleast j (List.mem_range.1 hj), by simpa using hfound⟩

theorem selectPreamble_eq_some_iff (b : List Bit) (s p : Nat) :
    selectPreamble b = some (s, p) ↔ s ≤ 8 ∧ firstMatch b s p ∧ ∀ s', s' < s → unmatchedShift b s' := by
  simp only [selectPreamble, Config.maxShift, findSome?_range_eq_some_iff, Option.map_eq_none_iff, Option.map_eq_some_iff,
    scanFrom_eq_none_iff, scanFrom_eq_some_iff, Prod.mk.injEq]
  constructor
  · rintro ⟨_, hs, ⟨_, hfirst, rfl, rfl⟩, hleast⟩
    exact ⟨by omega, hfirst, hleast⟩
  · rintro ⟨hs, hfirst, hleast⟩
    exact ⟨s, by omega, ⟨p, hfirst, rfl, rfl⟩, hleast⟩

theorem selectPreamble_eq_none_iff (b : List Bit) : selectPreamble b = none ↔ noPreamble b := by
  simp only [selectPreamble, Config.maxShift, List.findSome?_eq_none_iff, List.mem_range, Option.map_eq_none_iff,
    scanFrom_eq_none_iff]
  exact ⟨fun h s p hs => h s (by omega) p, fun h s hs p => h s p (by omega)⟩

/-- Settles O26: the selection is the least shift whose scan answers, and a scan answers its first match. -/
theorem lowestShiftFirstMatchIsSelected : Obligations.LowestShiftFirstMatchIsSelected := by
  refine fun b => ⟨fun s p => (selectPreamble_eq_some_iff b s p).trans ?_, selectPreamble_eq_none_iff b⟩
  constructor
  · rintro ⟨hs, ⟨hcand, hmatch, hfirst⟩, hleast⟩
    exact ⟨hs, hcand, hmatch, hfirst, fun s' p' hlt => hleast s' hlt p'⟩
  · rintro ⟨hs, hcand, hmatch, hfirst, hleast⟩
    exact ⟨hs, ⟨hcand, hmatch, hfirst⟩, fun s' hlt p' => hleast s' p' hlt⟩

/-! ## Consequences (R98) -/

/-- A candidate of shift 8 is a candidate of shift 0, which is scanned before it. -/
theorem selectPreamble_shift_le_seven {b : List Bit} {s p : Nat} (h : selectPreamble b = some (s, p)) : s ≤ 7 := by
  obtain ⟨hs, ⟨hcand, hmatch, -⟩, hleast⟩ := (selectPreamble_eq_some_iff b s p).1 h
  by_contra hseven
  obtain rfl : s = 8 := by omega
  exact hleast 0 (by decide) p ((candidate_iff b 0 p).2 (.inr hcand)) hmatch

/-- The 16 bits of the selected match lie inside the stream. -/
theorem selectPreamble_pos_le {b : List Bit} {s p : Nat} (h : selectPreamble b = some (s, p)) : p + 16 ≤ b.length := by
  obtain ⟨-, ⟨-, ⟨hlen, -⟩, -⟩, -⟩ := (selectPreamble_eq_some_iff b s p).1 h
  exact hlen

/-- Settles O27: shift 0 matches wherever shift 8 does, and a frame at bit 0 is the first candidate of the least shift. -/
theorem shiftEightUnusedAndFramesAlign : Obligations.ShiftEightUnusedAndFramesAlign := by
  refine ⟨fun _ _ _ => selectPreamble_shift_le_seven, fun F K => ?_⟩
  have hframe : bitsMsb (0xAA#8 :: 0xAA#8 :: F) = preambleBits ++ bitsMsb F := bitsMsb_encodeFrame F
  rw [hframe, List.append_assoc, selectPreamble_preamble_append]

/-- A match at a bit index of at most 8 is a candidate of the shift of that number, so a selection is made there or at a
smaller shift. -/
theorem selectPreamble_of_matchAt {b : List Bit} {n : Nat} (hn : n ≤ 8) (h : matchAt b n) :
    ∃ s p, selectPreamble b = some (s, p) ∧ s ≤ n ∧ (s = n → p = n) := by
  rcases hsel : selectPreamble b with _ | ⟨s, p⟩
  · exact absurd h ((selectPreamble_eq_none_iff b).1 hsel n n hn (candidate_self_of_matchAt h))
  · obtain ⟨-, hfirst, hleast⟩ := (selectPreamble_eq_some_iff b s p).1 hsel
    refine ⟨s, p, rfl, ?_, ?_⟩
    · by_contra hlt
      exact hleast n (Nat.not_le.1 hlt) n (candidate_self_of_matchAt h) h
    · rintro rfl
      exact hfirst.unique (firstMatch_self h)

/-- The pattern has period 2: `10` before a preamble makes a preamble two bits early. -/
theorem one_zero_append_preambleBits : [true, false] ++ preambleBits = preambleBits ++ [true, false] := by decide

/-- Settles O28: the two bits before the frame begin a match, two bits before the true one. -/
theorem offsetEndingInOneZeroMatchesEarly : Obligations.OffsetEndingInOneZeroMatchesEarly := by
  intro J F K hJ
  have hframe : bitsMsb (0xAA#8 :: 0xAA#8 :: F) = preambleBits ++ bitsMsb F := bitsMsb_encodeFrame F
  have hstream : J ++ [true, false] ++ bitsMsb (0xAA#8 :: 0xAA#8 :: F) ++ K =
      J ++ (preambleBits ++ ([true, false] ++ (bitsMsb F ++ K))) := by
    calc J ++ [true, false] ++ bitsMsb (0xAA#8 :: 0xAA#8 :: F) ++ K
        = J ++ (([true, false] ++ preambleBits) ++ (bitsMsb F ++ K)) := by simp only [hframe, List.append_assoc]
      _ = J ++ (preambleBits ++ ([true, false] ++ (bitsMsb F ++ K))) := by
        rw [one_zero_append_preambleBits, List.append_assoc]
  rw [hstream]
  exact selectPreamble_of_matchAt (by omega) (matchAt_append_preamble J _)

end Sys2Proof.Machine
end

section
/-! # Byte reconstruction and reconciliation (R91 to R96): the recovered bytes, and the packet `recover` makes of them -/

namespace Sys2Proof.Machine

/-! ## The recovered bytes -/

/-- The byte whose bit 7 is bit `i` of the stream. -/
def byteFrom (b : List Bit) (i : Nat) : Byte :=
  byteOfBits (b.getD i false) (b.getD (i + 1) false) (b.getD (i + 2) false) (b.getD (i + 3) false) (b.getD (i + 4) false)
    (b.getD (i + 5) false) (b.getD (i + 6) false) (b.getD (i + 7) false)

/-- The sum of R92 for one byte. -/
theorem byteFrom_toNat (b : List Bit) (i : Nat) :
    (byteFrom b i).toNat = ((List.range 8).map fun k => (b.getD (i + k) false).toNat * 2 ^ (7 - k)).sum := by
  rw [byteFrom, byteOfBits_toNat]
  simp only [List.range_succ, List.range_zero, List.nil_append, List.cons_append, List.map_cons, List.map_nil,
    List.sum_cons, List.sum_nil, Nat.add_zero]
  omega

theorem byteFrom_drop (b : List Bit) (n i : Nat) : byteFrom (b.drop n) i = byteFrom b (n + i) := by
  simp only [byteFrom, List.getD_eq_getElem?_getD, List.getElem?_drop, Nat.add_assoc]

/-- Byte `j` of a packed stream begins at bit `8 * j` (R9). -/
theorem getElem?_packMsb {b : List Bit} {j : Nat} (h : j < (packMsb b).length) :
    (packMsb b)[j]? = some (byteFrom b (8 * j)) := by
  induction j generalizing b with
  | zero =>
    rw [length_packMsb] at h
    obtain ⟨c, hpack, hc⟩ := packMsb_of_long (l := b) (by omega)
    rw [hpack, List.getElem?_cons_zero, hc]
    rfl
  | succ j ih =>
    rw [length_packMsb] at h
    obtain ⟨c, hpack, -⟩ := packMsb_of_long (l := b) (by omega)
    have htail : j < (packMsb (b.drop 8)).length := by
      rw [length_packMsb, List.length_drop]
      omega
    rw [hpack, List.getElem?_cons_succ, ih htail, byteFrom_drop, Nat.mul_succ, Nat.add_comm]

theorem length_recoveredBytes (b : List Bit) (p : Nat) : (recoveredBytes b p).length = (b.length - (p + 16)) / 8 := by
  rw [recoveredBytes, length_packMsb, List.length_drop]

/-- Settles O29: the length and each byte of the packed rest of the stream. -/
theorem recoveredBytesAreMsbFirst : Obligations.RecoveredBytesAreMsbFirst := by
  refine fun b p => ⟨length_recoveredBytes b p, fun j hj => ?_⟩
  rw [recoveredBytes, getElem?_packMsb hj, Option.map_some, byteFrom_drop, byteFrom_toNat]

/-! ## The packet -/

/-- The length a header declares, in numbers (R64, R94). -/
theorem expectedLen_lenFieldOf (R : List Byte) :
    expectedLen (lenFieldOf R) = (256 * (byteAt R 4).toNat + (byteAt R 5).toNat + 1) % 65536 := by
  rw [expectedLen, lenFieldOf, be16_toNat]
  rfl

/-- The body is the payload as far as it goes, then zeros (R95). -/
theorem getElem?_reconcile (payload : List Byte) {expected i : Nat} (h : i < expected) :
    (reconcile payload expected).1[i]? = some (payload.getD i 0) := by
  rw [List.getD_eq_getElem?_getD]
  unfold reconcile
  split
  · next hpad =>
    rcases Nat.lt_or_ge i payload.length with hin | hout
    · rw [List.getElem?_append_left hin, List.getElem?_eq_getElem hin, Option.getD_some]
    · rw [List.getElem?_append_right hout, List.getElem?_replicate_of_lt (by omega), List.getElem?_eq_none hout,
        Option.getD_none]
  · next hpad =>
    have hin : i < payload.length := by omega
    split
    · rw [List.getElem?_take_of_lt h, List.getElem?_eq_getElem hin, Option.getD_some]
    · rw [List.getElem?_eq_getElem hin, Option.getD_some]

/-- Each byte of the packet is the recovered byte of that place, or a padding zero (R94, R95). -/
theorem getElem?_reconcilePacket_packet (info : SyncInfo) {R : List Byte} (hR : 6 ≤ R.length) {i : Nat}
    (hi : i < 6 + (reconcilePacket info R).expected) : (reconcilePacket info R).packet[i]? = some (R.getD i 0) := by
  have hheader : (R.take 6).length = 6 := List.length_take_of_le hR
  show (R.take 6 ++ (reconcile (R.drop 6) (reconcilePacket info R).expected).1)[i]? = _
  rcases Nat.lt_or_ge i 6 with hin | hout
  · rw [List.getElem?_append_left (by omega), List.getElem?_take_of_lt hin, List.getElem?_eq_getElem (by omega),
      List.getD_eq_getElem _ _ (by omega)]
  · obtain ⟨k, rfl⟩ := Nat.exists_eq_add_of_le hout
    rw [List.getElem?_append_right (by omega), hheader, Nat.add_sub_cancel_left, getElem?_reconcile _ (by omega),
      List.getD_eq_getElem?_getD, List.getD_eq_getElem?_getD, List.getElem?_drop]

theorem recon_of_lengths_iff {recon : Recon} {actual expected : Nat}
    (h : recon = if actual < expected then .padded else if expected < actual then .truncated else .equal) :
    (recon = .padded ↔ actual < expected) ∧ (recon = .truncated ↔ expected < actual) ∧
      (recon = .equal ↔ actual = expected) := by
  rcases Nat.lt_trichotomy actual expected with hlt | heq | hgt
  · simp [h, hlt, hlt.ne, hlt.not_gt]
  · simp [h, heq]
  · simp [h, hgt, hgt.ne', hgt.not_gt]

/-- `RECON` names the order of the two lengths (R95, R101). -/
theorem reconcilePacket_recon_iff (info : SyncInfo) (R : List Byte) :
    ((reconcilePacket info R).recon = .padded ↔ (reconcilePacket info R).actual < (reconcilePacket info R).expected) ∧
      ((reconcilePacket info R).recon = .truncated ↔
        (reconcilePacket info R).expected < (reconcilePacket info R).actual) ∧
      ((reconcilePacket info R).recon = .equal ↔ (reconcilePacket info R).actual = (reconcilePacket info R).expected) := by
  have hactual : (reconcilePacket info R).actual = (R.drop Config.headerBytes).length := List.length_drop.symm
  refine recon_of_lengths_iff ?_
  rw [hactual]
  exact reconcile_recon _ _

/-! ## `recover` -/

theorem recoverPacket_of_noPreamble {b : List Bit} (h : noPreamble b) : recoverPacket b = .error .preambleNotFound := by
  simp only [recoverPacket, (selectPreamble_eq_none_iff b).2 h]

theorem recoverPacket_of_short {b : List Bit} {s p : Nat} (hsel : selectPreamble b = some (s, p))
    (h : (recoveredBytes b p).length < 6) :
    recoverPacket b = .error (.headerTooShort ⟨s, p, (recoveredBytes b p).length⟩) := by
  simp only [recoverPacket, hsel]
  exact if_pos h

theorem recoverPacket_of_long {b : List Bit} {s p : Nat} (hsel : selectPreamble b = some (s, p))
    (h : 6 ≤ (recoveredBytes b p).length) :
    recoverPacket b = .ok (reconcilePacket ⟨s, p, (recoveredBytes b p).length⟩ (recoveredBytes b p)) := by
  simp only [recoverPacket, hsel]
  exact if_neg (Nat.not_lt.2 h)

/-- Settles O30: the three outcomes of `recover`, and the lengths and bytes of the reconciled packet. -/
theorem packetIsLengthCorrected : Obligations.PacketIsLengthCorrected := by
  refine fun b => ⟨recoverPacket_of_noPreamble, fun s p hsel => ⟨recoverPacket_of_short hsel, fun hlong => ?_⟩⟩
  have hok := recoverPacket_of_long hsel hlong
  have hlen := length_recovered_packet hok
  have hexpected := recovered_expected_lt hok
  rw [Config.headerBytes] at hlen
  exact ⟨_, hok, rfl, expectedLen_lenFieldOf _, rfl, hlen, by omega,
    fun i => getElem?_reconcilePacket_packet _ hlong, reconcilePacket_recon_iff _ _⟩

/-- Settles O33: the frame is selected at bit 0, and the bytes after it are cut off by reconciliation. -/
theorem framedPacketIsRecovered : Obligations.FramedPacketIsRecovered :=
  fun _ K hmin hlen => recoverPacket_framed K hmin hlen

end Sys2Proof.Machine
end

section
/-! # `RECOVER` (R99 to R101) and the reports of failed commands (R78, R100, R120) -/

namespace Sys2Proof.Machine

/-! ## The report words -/

/-- `x[SYNC_INFO].SHIFT <- shift` in numbers: the bits above `SHIFT` stay. -/
theorem setShift_eq_ofNat (w : Word) {shift : Nat} (h : shift < 16) :
    setShift w shift = BitVec.ofNat 32 (16 * (w.toNat / 16) + shift) := by
  rw [← setShift_toNat w shift h, BitVec.ofNat_toNat, BitVec.setWidth_eq]

theorem syncInfoWord_eq_ofNat {shift : Nat} (recon : Recon) (h : shift < 16) :
    syncInfoWord shift recon = BitVec.ofNat 32 (shift + 16 * reconNumber recon) := by
  rw [Nat.add_comm, ← syncInfoWord_toNat recon h, BitVec.ofNat_toNat, BitVec.setWidth_eq]

/-- A header field in its register (R45, R99). -/
theorem setWidth_be16 (b0 b1 : Byte) : (be16 b0 b1).setWidth 32 = BitVec.ofNat 32 (256 * b0.toNat + b1.toNat) := by
  rw [← be16_toNat, BitVec.ofNat_toNat]

/-! ## The command -/

theorem bitLenOk_iff (s : State) : bitLenOk s = true ↔ s.inBitlen.toNat ≤ 8 * s.params.ibufBytes := by
  simp [bitLenOk]

/-- `RECOVER` outside the range of R77 (R99). -/
theorem exec_recover_of_long {s : State} (h : 8 * s.params.ibufBytes < s.inBitlen.toNat) :
    exec .recover s = .next (complete .lenRange s) := by
  have hlen : ¬ bitLenOk s = true := by rw [bitLenOk_iff]; omega
  show execRecover s = _
  rw [execRecover, if_neg hlen]
  rfl

/-- `RECOVER` inside the range of R77 (R99). -/
theorem exec_recover_of_bitLenOk {s : State} (h : bitLenOk s = true) :
    exec .recover s = .next (finishRecover (recoverPacket (inputBits s)) s) := by
  show execRecover s = _
  rw [execRecover, if_pos h]

/-- A `RECOVER` that ends with `OK` reported a recovered packet. -/
theorem exec_recover_eq_ok {s t : State} (h : exec .recover s = .next t) (hcode : t.status.code = .ok) :
    ∃ r, recoverPacket (inputBits s) = .ok r ∧ t = complete .ok (reportRecovered r (emit r.packet s)) := by
  rcases Nat.lt_or_ge (8 * s.params.ibufBytes) s.inBitlen.toNat with hlong | hrange
  · rw [exec_recover_of_long hlong] at h
    cases h
    cases hcode
  · rw [exec_recover_of_bitLenOk ((bitLenOk_iff s).2 hrange)] at h
    cases hrec : recoverPacket (inputBits s) with
    | error e =>
      rw [hrec] at h
      cases e <;> cases h <;> cases hcode
    | ok r =>
      rw [hrec] at h
      cases h
      exact ⟨r, rfl, rfl⟩

/-- The result registers after a successful `RECOVER`, in numbers (R99). -/
theorem results_of_recovered {b : List Bit} {r : Recovered} (hr : recoverPacket b = .ok r) (s : State) :
    (complete .ok (reportRecovered r (emit r.packet s))).results = { s.results with
      outLen := BitVec.ofNat 32 (6 + r.expected)
      syncInfo := BitVec.ofNat 32 (r.info.shift + 16 * reconNumber r.recon)
      syncPos := BitVec.ofNat 32 r.info.pos
      recovLen := BitVec.ofNat 32 r.info.recovLen
      expLen := BitVec.ofNat 32 r.expected
      actLen := BitVec.ofNat 32 r.actual
      streamId := BitVec.ofNat 32 (256 * (byteAt r.packet 0).toNat + (byteAt r.packet 1).toNat)
      seqCtl := BitVec.ofNat 32 (256 * (byteAt r.packet 2).toNat + (byteAt r.packet 3).toNat)
      lenField := BitVec.ofNat 32 (256 * (byteAt r.packet 4).toNat + (byteAt r.packet 5).toNat) } := by
  have hshift : r.info.shift < 16 := Nat.lt_of_le_of_lt (recovered_shift_le hr) (by decide)
  have hlen : r.packet.length = 6 + r.expected := length_recovered_packet hr
  rw [complete_results, reportRecovered, emit_results, hlen, syncInfoWord_eq_ofNat _ hshift, streamIdOf, seqCtlOf, lenFieldOf,
    setWidth_be16, setWidth_be16, setWidth_be16]

/-- Settles O31: the range check, and then one report for each answer of `recover`. -/
theorem recoverReportsThePacket : Obligations.RecoverReportsThePacket := by
  refine ⟨by decide, fun s => ⟨exec_recover_of_long, fun hrange => ?_⟩⟩
  have hok : bitLenOk s = true := (bitLenOk_iff s).2 hrange
  refine ⟨fun hnone => ?_, fun info hshort => ?_, fun r hr => ?_⟩
  · rw [exec_recover_of_bitLenOk hok, hnone]
    rfl
  · have hshift : info.shift < 16 := Nat.lt_of_le_of_lt (headerTooShort_shift_le hshort) (by decide)
    rw [exec_recover_of_bitLenOk hok, hshort, ← setShift_eq_ofNat _ hshift]
    rfl
  · exact ⟨_, exec_recover_of_ok hok hr, rfl, obufByte_emit r.packet s, (CompletedFrom.recovered r hr hok).engineFrame,
      results_of_recovered hr s⟩

/-! ## Ranges -/

/-- The numbers of a successful recovery, against the length of the stream (R101). -/
theorem recovered_ranges {b : List Bit} {r : Recovered} (h : recoverPacket b = .ok r) :
    r.info.shift ≤ 7 ∧ r.info.pos + 16 + 8 * r.info.recovLen ≤ b.length ∧ 6 ≤ r.info.recovLen ∧
      r.actual = r.info.recovLen - 6 := by
  obtain ⟨s, p, hsel, hlong, rfl⟩ := recoverPacket_eq_ok h
  have hpos := selectPreamble_pos_le hsel
  have hbytes := length_recoveredBytes b p
  exact ⟨selectPreamble_shift_le_seven hsel, by show p + 16 + 8 * (recoveredBytes b p).length ≤ _; omega, hlong, rfl⟩

theorem recovered_recon_iff {b : List Bit} {r : Recovered} (h : recoverPacket b = .ok r) :
    (r.recon = .padded ↔ r.actual < r.expected) ∧ (r.recon = .truncated ↔ r.expected < r.actual) ∧
      (r.recon = .equal ↔ r.actual = r.expected) := by
  obtain ⟨s, p, -, -, rfl⟩ := recoverPacket_eq_ok h
  exact reconcilePacket_recon_iff _ _

theorem reconNumber_eq_iff (recon : Recon) :
    (reconNumber recon = 0 ↔ recon = .equal) ∧ (reconNumber recon = 1 ↔ recon = .padded) ∧
      (reconNumber recon = 2 ↔ recon = .truncated) := by
  cases recon <;> decide

/-- Settles O32: every number of the report is below `2^32`, so the registers hold the numbers themselves. -/
theorem recoverRegisterRanges : Obligations.RecoverRegisterRanges := by
  intro s t _ hexec hcode
  obtain ⟨r, hr, rfl⟩ := exec_recover_eq_ok hexec hcode
  obtain ⟨hshift, hstream, hmin, hactual⟩ := recovered_ranges hr
  obtain ⟨hpadded, htruncated, hequal⟩ := recovered_recon_iff hr
  obtain ⟨hnum0, hnum1, hnum2⟩ := reconNumber_eq_iff r.recon
  have hexpected := recovered_expected_lt hr
  have hrecon := reconNumber_le r.recon
  have hbits := s.inBitlen.isLt
  rw [length_inputBits] at hstream
  have hdiv : (r.info.shift + 16 * reconNumber r.recon) / 16 = reconNumber r.recon := by omega
  have hlens : BitVec.ofNat 32 r.actual = BitVec.ofNat 32 r.expected ↔ r.actual = r.expected := by
    rw [← BitVec.toNat_inj, toNat_ofNat_of_lt (by omega), toNat_ofNat_of_lt (by omega)]
  rw [results_of_recovered hr]
  dsimp only
  rw [hlens, toNat_ofNat_of_lt (by omega), toNat_ofNat_of_lt (by omega), toNat_ofNat_of_lt (by omega),
    toNat_ofNat_of_lt (by omega), toNat_ofNat_of_lt (by omega), toNat_ofNat_of_lt (by omega), hdiv]
  exact ⟨by omega, hstream, hmin, hactual, by omega, rfl, hnum0.trans hequal, hnum1.trans hpadded, hnum2.trans htruncated⟩

/-! ## Failures -/

/-- All that a failed completion can be: it wrote `STATUS` alone, or the three registers of `SYNC_HEADER_TOO_SHORT` too. -/
theorem CompletedFrom.failure_cases {s t : State} (h : CompletedFrom s t) (hcode : t.status.code ≠ .ok) :
    (∃ c, t = complete c s) ∨
      ∃ info : SyncInfo, info.shift ≤ Config.maxShift ∧ t = complete .syncHeaderTooShort (reportShortSync info s) := by
  cases h with
  | plain c => exact .inl ⟨c, rfl⟩
  | shortSync info hshort _ => exact .inr ⟨info, headerTooShort_shift_le hshort, rfl⟩
  | frame _ | recovered _ _ _ | parsed _ _ _ _ => exact absurd rfl hcode

/-- `SHIFT` written into a zero `SYNC_INFO` is all of it (R100). -/
theorem setShift_zero_toNat {shift : Nat} (h : shift < 16) : (setShift 0 shift).toNat = shift := by
  rw [setShift_toNat 0 shift h]
  exact Nat.zero_add shift

/-- Settles O19: a failed completion writes `STATUS`, and for a short header its three registers beside it. -/
theorem failureWritesNoOutput : Obligations.FailureWritesNoOutput := by
  intro i s t hzero hexec hcode
  obtain ⟨t', hexec', hcompleted⟩ := exec_completes i s
  rw [hexec] at hexec'
  cases hexec'
  rcases hcompleted.failure_cases hcode with ⟨c, rfl⟩ | ⟨info, hshift, rfl⟩
  · rw [complete_results, hzero]
    exact ⟨rfl, rfl, rfl, fun _ => rfl, rfl, by decide⟩
  · rw [complete_results, reportShortSync, hzero]
    refine ⟨rfl, rfl, rfl, fun hother => absurd rfl hother, rfl, ?_⟩
    exact (setShift_zero_toNat (Nat.lt_of_le_of_lt hshift (by decide))).symm ▸ hshift

end Sys2Proof.Machine
end

section
/-! # The packet field parser: UTF-8 and the text of a region (R111 to R115) -/

namespace Sys2Proof.Machine

/-! ## UTF-8 -/

/-- The bytes lie in the ranges, one for each (R111). -/
def bytesInRanges (need : List (Byte × Byte)) (bs : List Byte) : Prop :=
  List.Forall₂ (fun range b => inRange b range.1 range.2 = true) need bs

theorem inRange_iff (b lo hi : Byte) : inRange b lo hi = true ↔ lo.toNat ≤ b.toNat ∧ b.toNat ≤ hi.toNat := by
  simp [inRange]

/-- No two rows of the table share a first byte, so the first row found is the only one. -/
theorem utf8Lead_of_mem : ∀ b : Byte, ∀ row ∈ utf8Rows, inRange b row.lo row.hi = true → utf8Lead b = some row.tail := by
  decide

theorem utf8Lead_eq_some_iff (b : Byte) (need : List (Byte × Byte)) :
    utf8Lead b = some need ↔ ∃ row ∈ utf8Rows, inRange b row.lo row.hi = true ∧ row.tail = need := by
  constructor
  · intro h
    obtain ⟨row, hfind, htail⟩ := Option.map_eq_some_iff.1 h
    exact ⟨row, List.mem_of_find?_eq_some hfind, by simpa using List.find?_some hfind, htail⟩
  · rintro ⟨row, hrow, hfirst, rfl⟩
    exact utf8Lead_of_mem b row hrow hfirst

/-- The sequences of the statement's table are those of the model's rows. -/
theorem utf8Sequence_iff_row (q : List Byte) : utf8Sequence q ↔
    ∃ row ∈ utf8Rows, ∃ b bs, q = b :: bs ∧ inRange b row.lo row.hi = true ∧ bytesInRanges row.tail bs := by
  match q with
  | [] => simp [utf8Sequence]
  | [a] => simp [utf8Sequence, utf8Rows, bytesInRanges, inRange_iff]
  | [a, b] => simp [utf8Sequence, utf8Rows, bytesInRanges, inRange_iff]
  | [a, b, c] => simp [utf8Sequence, utf8Rows, bytesInRanges, inRange_iff]; omega
  | [a, b, c, d] => simp [utf8Sequence, utf8Rows, bytesInRanges, inRange_iff]; omega
  | a :: b :: c :: d :: e :: q => simp [utf8Sequence, utf8Rows, bytesInRanges]

theorem utf8Sequence_iff_lead (q : List Byte) : utf8Sequence q ↔
    ∃ b need bs, q = b :: bs ∧ utf8Lead b = some need ∧ bytesInRanges need bs := by
  rw [utf8Sequence_iff_row]
  constructor
  · rintro ⟨row, hrow, b, bs, hq, hfirst, hrest⟩
    exact ⟨b, row.tail, bs, hq, utf8Lead_of_mem b row hrow hfirst, hrest⟩
  · rintro ⟨b, need, bs, hq, hlead, hrest⟩
    obtain ⟨row, hrow, hfirst, rfl⟩ := (utf8Lead_eq_some_iff b need).1 hlead
    exact ⟨row, hrow, b, bs, hq, hfirst, hrest⟩

theorem utf8After_nil_cons (b : Byte) (bs : List Byte) : utf8After [] (b :: bs) = true ↔
    ∃ need, utf8Lead b = some need ∧ utf8After need bs = true := by
  rw [utf8After]
  cases utf8Lead b <;> simp

theorem utf8After_cons_cons (range : Byte × Byte) (need : List (Byte × Byte)) (b : Byte) (bs : List Byte) :
    utf8After (range :: need) (b :: bs) = (inRange b range.1 range.2 && utf8After need bs) := rfl

/-- Bytes in the open ranges close the sequence that was begun. -/
theorem utf8After_append {need : List (Byte × Byte)} {bs : List Byte} (h : bytesInRanges need bs) (rest : List Byte) :
    utf8After need (bs ++ rest) = utf8After [] rest := by
  induction h with
  | nil => rfl
  | cons hb _ ih => rw [List.cons_append, utf8After_cons_cons, hb, ih, Bool.true_and]

/-- A valid sequence begins with the bytes that its open ranges ask for. -/
theorem exists_append_of_utf8After {need : List (Byte × Byte)} {l : List Byte} (h : utf8After need l = true) :
    ∃ bs rest, l = bs ++ rest ∧ bytesInRanges need bs ∧ utf8After [] rest = true := by
  induction need generalizing l with
  | nil => exact ⟨[], l, rfl, .nil, h⟩
  | cons range need ih =>
    cases l with
    | nil => cases h
    | cons b l =>
      rw [utf8After_cons_cons, Bool.and_eq_true] at h
      obtain ⟨bs, rest, rfl, hbs, hrest⟩ := ih h.2
      exact ⟨b :: bs, rest, rfl, .cons h.1 hbs, hrest⟩

theorem utf8Ok_append_of_sequence {q : List Byte} (h : utf8Sequence q) (rest : List Byte) :
    utf8Ok (q ++ rest) = true ↔ utf8Ok rest = true := by
  obtain ⟨b, need, bs, rfl, hlead, hbs⟩ := (utf8Sequence_iff_lead q).1 h
  rw [utf8Ok, List.cons_append, utf8After_nil_cons, hlead]
  simp [utf8After_append hbs, utf8Ok]

theorem exists_sequence_of_utf8Ok {b : Byte} {l : List Byte} (h : utf8Ok (b :: l) = true) :
    ∃ bs rest, l = bs ++ rest ∧ utf8Sequence (b :: bs) ∧ utf8Ok rest = true := by
  obtain ⟨need, hlead, hneed⟩ := (utf8After_nil_cons b l).1 h
  obtain ⟨bs, rest, hl, hbs, hrest⟩ := exists_append_of_utf8After hneed
  exact ⟨bs, rest, hl, (utf8Sequence_iff_lead _).2 ⟨b, need, bs, rfl, hlead, hbs⟩, hrest⟩

theorem exists_sequences_of_utf8Ok (r : List Byte) (h : utf8Ok r = true) :
    ∃ qs : List (List Byte), r = qs.flatten ∧ ∀ q ∈ qs, utf8Sequence q := by
  match r with
  | [] => exact ⟨[], rfl, by simp⟩
  | b :: l =>
    obtain ⟨bs, rest, hl, hfirst, hrest⟩ := exists_sequence_of_utf8Ok h
    have hshorter : rest.length < (b :: l).length := by simp [hl]
    obtain ⟨qs, hqs, hall⟩ := exists_sequences_of_utf8Ok rest hrest
    exact ⟨(b :: bs) :: qs, by simp [hl, hqs], List.forall_mem_cons.2 ⟨hfirst, hall⟩⟩
termination_by r.length

/-- Settles O38: the scan is cut after each sequence, and each sequence is scanned from its first byte on. -/
theorem utf8IsConcatenationOfSequences : Obligations.Utf8IsConcatenationOfSequences := by
  refine fun r => ⟨exists_sequences_of_utf8Ok r, ?_⟩
  rintro ⟨qs, rfl, hall⟩
  induction qs with
  | nil => rfl
  | cons q qs ih =>
    obtain ⟨hq, hqs⟩ := List.forall_mem_cons.1 hall
    exact (utf8Ok_append_of_sequence hq qs.flatten).2 (ih hqs)

/-! ## The decoding of a region (R112 to R114) -/

theorem decodeRegion_of_invalid {r : Region} (h : utf8Ok r.bytes = false) :
    decodeRegion r = (none, true, hexLower r.bytes) := by
  rw [decodeRegion, h]
  rfl

theorem decodeRegion_of_no_id {r : Region} (h : utf8Ok r.bytes = true) (hid : r.idAllowed = false) :
    decodeRegion r = (none, false, stripNul r.bytes) := by
  rw [decodeRegion, h, hid]
  rfl

theorem decodeRegion_of_id_allowed {r : Region} (h : utf8Ok r.bytes = true) (hid : r.idAllowed = true) :
    decodeRegion r = ((splitId (stripNul r.bytes)).1, false, (splitId (stripNul r.bytes)).2) := by
  rw [decodeRegion, h, hid]
  rfl

/-! ## Trailing NULs -/

theorem stripNul_eq_rdropWhile (r : List Byte) : stripNul r = r.rdropWhile fun b => b == 0x00#8 := rfl

/-- What is stripped is NULs. -/
theorem exists_append_of_stripNul (r : List Byte) : ∃ nuls, r = stripNul r ++ nuls ∧ ∀ b ∈ nuls, b = 0x00#8 := by
  refine ⟨r.rtakeWhile fun b => b == 0x00#8, ?_, fun b hb => ?_⟩
  · rw [stripNul_eq_rdropWhile, List.rdropWhile_append_rtakeWhile]
  · simpa using List.mem_rtakeWhile_imp hb

/-- What is kept does not end in a NUL. -/
theorem stripNul_getLast_ne {r : List Byte} (h : stripNul r ≠ []) : (stripNul r).getLast h ≠ 0x00#8 := by
  have hlast : ¬ ((stripNul r).getLast h == 0x00#8) = true := List.rdropWhile_last_not (fun b => b == 0x00#8) r h
  simpa using hlast

theorem stripNul_eq_take (r : List Byte) : stripNul r = r.take (stripNul r).length :=
  List.prefix_iff_eq_take.1 (List.rdropWhile_prefix _ r)

theorem getElem?_of_stripNul_le {r : List Byte} {j : Nat} (hj : (stripNul r).length ≤ j) (hr : j < r.length) :
    r[j]? = some 0x00#8 := by
  obtain ⟨nuls, happend, hnuls⟩ := exists_append_of_stripNul r
  have hget : r[j]? = nuls[j - (stripNul r).length]? := by
    rw [← List.getElem?_append_right hj, ← happend]
  obtain ⟨b, hb⟩ : ∃ b, r[j]? = some b := ⟨_, List.getElem?_eq_getElem hr⟩
  rw [hb, hnuls b (List.mem_of_getElem? (hget.symm.trans hb))]

theorem getElem?_stripNul_last_ne {r : List Byte} (h : stripNul r ≠ []) :
    r[(stripNul r).length - 1]? ≠ some 0x00#8 := by
  obtain ⟨nuls, happend, -⟩ := exists_append_of_stripNul r
  have hpos := List.length_pos_iff.2 h
  have hkept : (stripNul r ++ nuls)[(stripNul r).length - 1]? = (stripNul r)[(stripNul r).length - 1]? :=
    List.getElem?_append_left (by omega)
  rw [← happend, ← List.getLast?_eq_getElem?, List.getLast?_eq_some_getLast h] at hkept
  rw [hkept, ne_eq, Option.some.injEq]
  exact stripNul_getLast_ne h

/-- Settles O39: the cut is the length of the stripped sequence, and the byte before the cut is not a NUL. -/
theorem trailingNulsAreStripped : Obligations.TrailingNulsAreStripped := by
  refine ⟨fun r => ⟨(stripNul r).length, length_stripNul_le r, stripNul_eq_take r, fun j => getElem?_of_stripNul_le,
    fun k hk => ?_⟩, fun _ => decodeRegion_of_no_id⟩
  have hlen := length_stripNul_le r
  exact ⟨(stripNul r).length - 1, by omega, by omega,
    getElem?_stripNul_last_ne (List.ne_nil_of_length_pos (by omega))⟩

/-! ## Hexadecimal text -/

theorem hexLower_cons (b : Byte) (r : List Byte) :
    hexLower (b :: r) = hexDigit (b.toNat / 16) :: hexDigit (b.toNat % 16) :: hexLower r := rfl

theorem hexAlphabet_getElem? : ∀ n : Fin 16, hexAlphabet[n.val]? = some (hexDigit n.val) := by decide

theorem getElem?_hexLower {r : List Byte} {j : Nat} {b : Byte} (h : r[j]? = some b) :
    (hexLower r)[2 * j]? = some (hexDigit (b.toNat / 16)) ∧ (hexLower r)[2 * j + 1]? = some (hexDigit (b.toNat % 16)) := by
  induction r generalizing j with
  | nil => cases h
  | cons c r ih =>
    rw [hexLower_cons]
    cases j with
    | zero =>
      cases h
      exact ⟨rfl, rfl⟩
    | succ j => exact ih h

/-- Settles O40: each byte of the region becomes the alphabet's characters of its two nibbles. -/
theorem invalidRegionBecomesHex : Obligations.InvalidRegionBecomesHex := by
  refine fun r hinvalid => ⟨_, decodeRegion_of_invalid hinvalid, length_hexLower r.bytes, fun j b hb => ?_⟩
  have hbyte := b.isLt
  rw [hexAlphabet_getElem? ⟨b.toNat / 16, by omega⟩, hexAlphabet_getElem? ⟨b.toNat % 16, by omega⟩]
  exact getElem?_hexLower hb

/-! ## The id -/

theorem isDigit_iff (b : Byte) : isDigit b = true ↔ 0x30 ≤ b.toNat ∧ b.toNat ≤ 0x39 := by
  simp [isDigit, inRange_iff]

/-- A digit run holds no `':'`. -/
theorem colon_not_mem_of_digits {d : List Byte} (h : ∀ b ∈ d, isDigit b = true) : 0x3A#8 ∉ d :=
  fun hmem => absurd (h _ hmem) (by decide)

theorem splitColon_append {d : List Byte} (h : 0x3A#8 ∉ d) (rest : List Byte) :
    splitColon (d ++ 0x3A#8 :: rest) = some (d, rest) := by
  induction d with
  | nil => rfl
  | cons b d ih =>
    obtain ⟨hb, hd⟩ := not_or.1 (mt List.mem_cons.2 h)
    rw [List.cons_append, splitColon, if_neg (Ne.symm hb), ih hd]

/-- `t` is a run of digits, a `':'` and the rest: the id of R114 is taken. -/
theorem idColonAt_iff_append (t : List Byte) (c : Nat) : idColonAt t c ↔
    ∃ d rest, t = d ++ 0x3A#8 :: rest ∧ d.length = c ∧ d ≠ [] ∧ ∀ b ∈ d, isDigit b = true := by
  constructor
  · rintro ⟨hcolon, -, hpos, hdigits⟩
    obtain ⟨hc, hget⟩ := List.getElem?_eq_some_iff.1 hcolon
    refine ⟨t.take c, t.drop (c + 1), ?_, List.length_take_of_le hc.le, ?_, fun b hb => ?_⟩
    · rw [← hget, ← List.drop_eq_getElem_cons, List.take_append_drop]
    · exact List.ne_nil_of_length_pos (by rwa [List.length_take_of_le hc.le])
    · obtain ⟨j, hj⟩ := List.mem_iff_getElem?.1 hb
      rw [List.getElem?_take, Option.ite_none_right_eq_some] at hj
      obtain ⟨hjc, hjb⟩ := hj
      obtain ⟨b', hb', hrange⟩ := hdigits j hjc
      cases hjb.symm.trans hb'
      exact (isDigit_iff b).2 hrange
  · rintro ⟨d, rest, rfl, rfl, hne, hdigits⟩
    have hrun : ∀ j, j < d.length → ∃ b ∈ d, (d ++ 0x3A#8 :: rest)[j]? = some b := fun j hj =>
      ⟨d[j], List.getElem_mem hj, by rw [List.getElem?_append_left hj, List.getElem?_eq_getElem hj]⟩
    refine ⟨by simp, fun j hj hcolon => ?_, List.length_pos_iff.2 hne, fun j hj => ?_⟩
    · obtain ⟨b, hb, hget⟩ := hrun j hj
      cases hget.symm.trans hcolon
      exact colon_not_mem_of_digits hdigits hb
    · obtain ⟨b, hb, hget⟩ := hrun j hj
      exact ⟨b, hget, (isDigit_iff b).1 (hdigits b hb)⟩

theorem splitId_append {d : List Byte} (hne : d ≠ []) (hdigits : ∀ b ∈ d, isDigit b = true) (rest : List Byte) :
    splitId (d ++ 0x3A#8 :: rest) = (some (decValue d), rest) := by
  rw [splitId, splitColon_append (colon_not_mem_of_digits hdigits)]
  exact if_pos ⟨List.isEmpty_eq_false_iff.2 hne, List.all_eq_true.2 hdigits⟩

theorem splitId_of_idColonAt {t : List Byte} {c : Nat} (h : idColonAt t c) :
    splitId t = (some (decValue (t.take c)), t.drop (c + 1)) := by
  obtain ⟨d, rest, rfl, rfl, hne, hdigits⟩ := (idColonAt_iff_append t c).1 h
  rw [splitId_append hne hdigits, List.take_left, ← List.drop_drop, List.drop_left]
  rfl

theorem splitId_of_no_idColonAt {t : List Byte} (h : ∀ c, ¬ idColonAt t c) : splitId t = (none, t) := by
  unfold splitId
  split
  · next d rest hcolon =>
    refine if_neg fun hid => h d.length ((idColonAt_iff_append t _).2 ?_)
    exact ⟨d, rest, eq_append_of_splitColon hcolon, rfl, by simpa using hid.1, by simpa using hid.2⟩
  · rfl

/-- Settles O41: each of R114's cases is a case of `splitId`, or of the region that allows no id. -/
theorem idIsTheDigitRunBeforeTheColon : Obligations.IdIsTheDigitRunBeforeTheColon := by
  intro r hvalid
  refine ⟨fun hid c hc => ?_, fun hnone => ?_, decodeRegion_of_no_id hvalid⟩
  · rw [decodeRegion_of_id_allowed hvalid hid, splitId_of_idColonAt hc]
  · cases hid : r.idAllowed with
    | false => exact decodeRegion_of_no_id hvalid hid
    | true => rw [decodeRegion_of_id_allowed hvalid hid, splitId_of_no_idColonAt hnone]

/-! ## The value of an id (R115) -/

/-- One more digit (R115). -/
theorem decValue_concat (d : List Byte) (b : Byte) : decValue (d ++ [b]) = 10 * decValue d + (b.toNat - 0x30) := by
  simp [decValue]

theorem byteAt_append_left {d : List Byte} {j : Nat} (h : j < d.length) (e : List Byte) :
    byteAt (d ++ e) j = byteAt d j := List.getD_append _ _ _ _ h

/-- The value of a run is the sum of its digits, each with its power of ten (R115). -/
theorem decValue_eq_sum (d : List Byte) : decValue d =
    ((List.range d.length).map fun j => ((byteAt d j).toNat - 0x30) * 10 ^ (d.length - 1 - j)).sum := by
  induction d using List.reverseRecOn with
  | nil => rfl
  | append_singleton d b ih =>
    have hlast : byteAt (d ++ [b]) d.length = b := by simp [byteAt]
    have hshift : ∀ j ∈ List.range d.length,
        ((byteAt (d ++ [b]) j).toNat - 0x30) * 10 ^ (d.length + 1 - 1 - j) =
          10 * (((byteAt d j).toNat - 0x30) * 10 ^ (d.length - 1 - j)) := by
      intro j hj
      have hj := List.mem_range.1 hj
      have hpow : d.length + 1 - 1 - j = (d.length - 1 - j) + 1 := by omega
      rw [byteAt_append_left hj, hpow, pow_succ']
      ring
    rw [decValue_concat, ih, List.length_append, List.length_singleton, List.range_succ, List.map_append, List.sum_append,
      List.map_congr_left hshift, List.sum_map_mul_left]
    simp [hlast]

theorem pflagsWord_idOvf : ∀ hasCmdCode hasId textHex markerFound idOvf : Bool,
    (pflagsWord hasCmdCode hasId textHex markerFound idOvf).getLsbD 4 = idOvf := by decide

/-- Settles O42: `SEQ_ID` is the low word of the sum. -/
theorem idValueIsDecimal : Obligations.IdValueIsDecimal := by
  refine ⟨decValue_eq_sum, fun f n s hid => ⟨?_, ?_⟩⟩
  · rw [reportParsed_results_seqId, hid]
    exact BitVec.toNat_ofNat n 32
  · rw [reportParsed_results_pflags, pflagsOf, pflagsWord_idOvf, hid, idOverflow]

end Sys2Proof.Machine
end

section
/-! # The packet field parser: the regions, the header fields and the two commands (R104 to R110, R117 to R122) -/

namespace Sys2Proof.Machine

/-! ## The command-direction region -/

/-- Settles O36: the region is a tail of the packet. -/
theorem commandRegionStartsAtTheOffset : Obligations.CommandRegionStartsAtTheOffset :=
  fun _ _ => ⟨List.drop_eq_nil_of_le, List.length_drop, fun _ => List.getElem?_drop, rfl, rfl⟩

/-! ## The telemetry-direction region -/

/-- The marker stands where the bytes from there on begin with it (R110). -/
theorem markerAt_iff_prefix (M P : List Byte) (i : Nat) :
    markerAt M P i ↔ 6 ≤ i ∧ i ≤ P.length ∧ M <+: P.drop i := by
  rw [markerAt, eq_comm (b := M), ← List.prefix_iff_eq_take]
  refine and_congr_right fun _ => ⟨fun ⟨hfits, hM⟩ => ⟨by omega, hM⟩, fun ⟨hle, hM⟩ => ⟨?_, hM⟩⟩
  have hlen := hM.length_le
  rw [List.length_drop] at hlen
  omega

theorem afterMarker_of_prefix {M l : List Byte} (h : M <+: l) : afterMarker M l = some (l.drop M.length) := by
  cases l with
  | nil =>
    rw [List.prefix_nil.1 h]
    rfl
  | cons b l => rw [afterMarker, if_pos (List.isPrefixOf_iff_prefix.2 h)]

theorem afterMarker_cons_of_not_prefix {M l : List Byte} {b : Byte} (h : ¬ M <+: b :: l) :
    afterMarker M (b :: l) = afterMarker M l := by
  rw [afterMarker, if_neg (mt List.isPrefixOf_iff_prefix.1 h)]

/-- The search stops at the first occurrence. -/
theorem afterMarker_of_first {M l : List Byte} {k : Nat} (hk : k ≤ l.length) (h : M <+: l.drop k)
    (hfirst : ∀ j, j < k → ¬ M <+: l.drop j) : afterMarker M l = some (l.drop (k + M.length)) := by
  induction k generalizing l with
  | zero =>
    rw [Nat.zero_add]
    exact afterMarker_of_prefix h
  | succ k ih =>
    cases l with
    | nil => cases hk
    | cons b l =>
      rw [afterMarker_cons_of_not_prefix (hfirst 0 (Nat.succ_pos k)),
        ih (Nat.le_of_succ_le_succ hk) h fun j hj => hfirst (j + 1) (Nat.succ_lt_succ hj), Nat.succ_add_eq_add_succ]
      rfl

theorem afterMarker_of_absent {M l : List Byte} (h : ∀ j, j ≤ l.length → ¬ M <+: l.drop j) : afterMarker M l = none := by
  induction l with
  | nil =>
    have hM : M ≠ [] := fun hM => h 0 (Nat.le_refl 0) (hM ▸ List.nil_prefix)
    rw [afterMarker, if_neg (by simpa using hM)]
  | cons b l ih =>
    rw [afterMarker_cons_of_not_prefix (h 0 (Nat.zero_le _))]
    exact ih fun j hj => h (j + 1) (Nat.succ_le_succ hj)

/-- Settles O37: an index of the packet's marker is six more than an index of the search, which starts after the header. -/
theorem telemetryRegionFollowsTheFirstMarker : Obligations.TelemetryRegionFollowsTheFirstMarker := by
  intro p P hmin
  have hmarker : ∀ j, 6 + j ≤ P.length → (markerAt p.tlmMarker P (6 + j) ↔ p.tlmMarker <+: (P.drop 6).drop j) := by
    intro j hj
    rw [markerAt_iff_prefix, List.drop_drop]
    exact ⟨fun h => h.2.2, fun h => ⟨Nat.le_add_right 6 j, hj, h⟩⟩
  refine ⟨fun i hi hfirst => ?_, fun hnone => ?_⟩
  · obtain ⟨hsix, hle, -⟩ := (markerAt_iff_prefix _ _ _).1 hi
    obtain ⟨k, rfl⟩ := Nat.exists_eq_add_of_le hsix
    have hafter : afterMarker p.tlmMarker (P.drop 6) = some (P.drop (6 + k + p.tlmMarker.length)) := by
      rw [afterMarker_of_first (by rw [List.length_drop]; omega) ((hmarker k hle).1 hi)
        fun j hj => mt (hmarker j (by omega)).2 (hfirst (6 + j) (by omega)), List.drop_drop, Nat.add_assoc]
    rw [regionOf, telemetryRegion, Config.headerBytes, hafter]
  · have hafter : afterMarker p.tlmMarker (P.drop 6) = none :=
      afterMarker_of_absent fun j hj => mt (hmarker j (by rw [List.length_drop] at hj; omega)).2 (hnone (6 + j))
    rw [regionOf, telemetryRegion, Config.headerBytes, hafter]

/-! ## The function -/

theorem parsePacket_of_short {p : Params} {dir : Direction} {P : List Byte} (h : P.length < 6) :
    parsePacket p dir P = .error .headerTooShort := if_pos h

/-- `parse` fails on short packets only (R117). -/
theorem exists_parsed_of_long {P : List Byte} (p : Params) (dir : Direction) (h : 6 ≤ P.length) :
    ∃ f, parsePacket p dir P = .ok f := ⟨_, if_neg (Nat.not_lt.2 h)⟩

theorem cmdCodeOf_eq (dir : Direction) (P : List Byte) :
    cmdCodeOf dir P = if dir = .cmd ∧ 7 ≤ P.length then some (byteAt P 6) else none := by
  cases dir with
  | tlm => rfl
  | cmd =>
    rcases Nat.lt_or_ge 6 P.length with hlong | hshort
    · rw [if_pos ⟨rfl, hlong⟩, byteAt, List.getD_eq_getElem _ _ hlong]
      exact List.getElem?_eq_getElem hlong
    · rw [if_neg (by omega)]
      exact List.getElem?_eq_none hshort

theorem toNat_and_apidMask (x : Half) : (x &&& Config.apidMask).toNat = x.toNat % 2048 := by
  rw [BitVec.toNat_and]
  exact Nat.and_two_pow_sub_one_eq_mod x.toNat 11

theorem toNat_and_seqCountMask (x : Half) : (x &&& Config.seqCountMask).toNat = x.toNat % 16384 := by
  rw [BitVec.toNat_and]
  exact Nat.and_two_pow_sub_one_eq_mod x.toNat 14

/-- Settles O35: the fields of a successful parse, each in numbers. -/
theorem headerFieldsAreParsed : Obligations.HeaderFieldsAreParsed := by
  refine fun p dir P => ⟨parsePacket_of_short, fun hlong => ?_⟩
  obtain ⟨f, hf⟩ := exists_parsed_of_long p dir hlong
  refine ⟨f, hf, ?_⟩
  obtain ⟨-, rfl⟩ := parsePacket_eq_ok hf
  exact ⟨be16_toNat _ _, be16_toNat _ _, be16_toNat _ _, toNat_and_apidMask _, toNat_and_seqCountMask _, cmdCodeOf_eq dir P,
    rfl, rfl⟩

/-! ## The commands -/

theorem pflagsOf_eq_ofNat (f : ParsedFields) : pflagsOf f = BitVec.ofNat 32
    (f.cmdCode.isSome.toNat + 2 * f.id.isSome.toNat + 4 * f.textHex.toNat + 8 * f.markerFound.toNat
      + 16 * (decide (2 ^ 32 ≤ f.id.getD 0)).toNat) := by
  have hovf : idOverflow f.id = decide (2 ^ 32 ≤ f.id.getD 0) := by cases f.id <;> rfl
  rw [← hovf, ← pflagsWord_toNat, BitVec.ofNat_toNat, BitVec.setWidth_eq, pflagsOf]

/-- The result registers after a successful `PARSE`, in numbers (R118, R119). -/
theorem results_of_parsed (f : ParsedFields) (s : State) :
    (complete .ok (reportParsed f (emit f.text s))).results = parseResults f s.results := by
  have hmod : ∀ n, BitVec.ofNat 32 (n % 2 ^ 32) = BitVec.ofNat 32 n := fun n => by
    rw [← BitVec.toNat_inj, BitVec.toNat_ofNat, BitVec.toNat_ofNat, Nat.mod_mod]
  simp only [parseResults, BitVec.ofNat_toNat, hmod, ← pflagsOf_eq_ofNat]
  rfl

theorem parseCommand_of_long {s : State} (dir : Direction) (h : s.params.ibufBytes < s.inLen.toNat) :
    parseCommand dir s = .next (complete .lenRange s) := by
  have hlen : ¬ byteLenOk s = true := by rw [byteLenOk_iff]; omega
  rw [parseCommand, if_neg hlen]
  rfl

theorem parseCommand_of_byteLenOk {s : State} (dir : Direction) (h : s.inLen.toNat ≤ s.params.ibufBytes) :
    parseCommand dir s = .next (finishParse (parsePacket s.params dir (inputBytes s)) s) := by
  rw [parseCommand, if_pos ((byteLenOk_iff s).2 h)]

/-- A packet with a header, inside the range of R77, is parsed (R117, R118). -/
theorem parseCommand_of_header {s : State} (dir : Direction) (h : s.inLen.toNat ≤ s.params.ibufBytes)
    (hmin : 6 ≤ s.inLen.toNat) : ∃ f, parsePacket s.params dir (inputBytes s) = .ok f ∧
      parseCommand dir s = .next (complete .ok (reportParsed f (emit f.text s))) := by
  obtain ⟨f, hf⟩ := exists_parsed_of_long s.params dir (P := inputBytes s) (by rwa [length_inputBytes])
  refine ⟨f, hf, ?_⟩
  rw [parseCommand_of_byteLenOk dir h, hf]
  rfl

theorem parsed_markerFound_of_cmd {p : Params} {P : List Byte} {f : ParsedFields} (h : parsePacket p .cmd P = .ok f) :
    f.markerFound = false := by
  obtain ⟨-, rfl⟩ := parsePacket_eq_ok h
  rfl

theorem parsed_cmdCode_of_tlm {p : Params} {P : List Byte} {f : ParsedFields} (h : parsePacket p .tlm P = .ok f) :
    f.cmdCode = none := by
  obtain ⟨-, rfl⟩ := parsePacket_eq_ok h
  rfl

/-- Both `PARSE` forms: the range check, the short packet, and the report of the fields (R118, R119). -/
theorem parseCompletes_of_exec {i : Instr} {dir : Direction} (hexec : ∀ s, exec i s = parseCommand dir s) :
    parseCompletes i dir := by
  intro s
  rw [hexec]
  refine ⟨parseCommand_of_long dir, fun hrange hshort => ?_, fun hrange hmin => ?_⟩
  · rw [parseCommand_of_byteLenOk dir hrange, parsePacket_of_short (by rwa [length_inputBytes])]
    rfl
  · obtain ⟨f, hf, hparse⟩ := parseCommand_of_header dir hrange hmin
    refine ⟨f, _, hf, hparse, ?_, ?_, results_of_parsed f s, rfl, obufByte_emit f.text s,
      (CompletedFrom.parsed dir f hf ((byteLenOk_iff s).2 hrange)).engineFrame⟩
    · rintro rfl
      exact parsed_markerFound_of_cmd hf
    · rintro rfl
      exact parsed_cmdCode_of_tlm hf

theorem exec_parseCmd (s : State) : exec .parseCmd s = parseCommand .cmd s := rfl

theorem exec_parseTlm (s : State) : exec .parseTlm s = parseCommand .tlm s := rfl

/-- Settles O43, by the completion both forms share; the command table gives the word. -/
theorem parseCmdReportsTheFields : Obligations.ParseCmdReportsTheFields := ⟨rfl, parseCompletes_of_exec exec_parseCmd⟩

/-- Settles O44, as O43 in the other direction. -/
theorem parseTlmReportsTheFields : Obligations.ParseTlmReportsTheFields := ⟨rfl, parseCompletes_of_exec exec_parseTlm⟩

/-! ## `PARSE` after `RECOVER` -/

/-- A recovered packet has a header (R93, R95). -/
theorem six_le_outLen_of_recovered {s t : State} (h : exec .recover s = .next t) (hcode : t.status.code = .ok) :
    6 ≤ t.results.outLen.toNat := by
  obtain ⟨r, hr, rfl⟩ := exec_recover_eq_ok h hcode
  have hexpected := recovered_expected_lt hr
  rw [results_of_recovered hr]
  dsimp only
  rw [toNat_ofNat_of_lt (by omega)]
  exact Nat.le_add_right 6 _

/-- Settles O45: the output has a header, and a packet with a header is parsed. -/
theorem recoveredPacketAlwaysParses : Obligations.RecoveredPacketAlwaysParses := by
  intro i s t u hi _ hrecover hcode _ hlink hrange
  have hmin : 6 ≤ u.inLen.toNat := hlink ▸ six_le_outLen_of_recovered hrecover hcode
  obtain ⟨dir, hdir⟩ : ∃ dir, exec i u = parseCommand dir u := by
    rcases hi with rfl | rfl
    · exact ⟨_, exec_parseCmd u⟩
    · exact ⟨_, exec_parseTlm u⟩
  obtain ⟨f, -, hparse⟩ := parseCommand_of_header dir hrange hmin
  exact ⟨_, hdir.trans hparse, rfl⟩

end Sys2Proof.Machine
end

section
/-! # The codes of the commands (R125 to R127): which check each command fails first -/

namespace Sys2Proof.Machine

/-! ## `RECOVER` -/

/-- A stream of fewer than 16 bits has no candidate at any shift (R88, R91). -/
theorem noPreamble_of_short {b : List Bit} (h : b.length < 16) : noPreamble b :=
  fun _ p _ => unmatchedShift_of_short (by omega) p

/-- The recovered bytes of the bits of `IBUF`, counted from `IN_BITLEN` as R126 does. -/
theorem length_recoveredBytes_inputBits (s : State) (p : Nat) :
    (recoveredBytes (inputBits s) p).length = (s.inBitlen.toNat - p - 16) / 8 := by
  rw [length_recoveredBytes, length_inputBits, Nat.sub_sub]

theorem exec_recover_of_noPreamble {s : State} (h : s.inBitlen.toNat ≤ 8 * s.params.ibufBytes)
    (hnone : noPreamble (inputBits s)) : exec .recover s = .next (complete .preambleNotFound s) := by
  rw [exec_recover_of_bitLenOk ((bitLenOk_iff s).2 h), recoverPacket_of_noPreamble hnone]
  rfl

theorem exec_recover_of_short {s : State} {sh p : Nat} (h : s.inBitlen.toNat ≤ 8 * s.params.ibufBytes)
    (hsel : selectPreamble (inputBits s) = some (sh, p)) (hshort : (recoveredBytes (inputBits s) p).length < 6) :
    exec .recover s = .next (complete .syncHeaderTooShort
      (reportShortSync ⟨sh, p, (recoveredBytes (inputBits s) p).length⟩ s)) := by
  rw [exec_recover_of_bitLenOk ((bitLenOk_iff s).2 h), recoverPacket_of_short hsel hshort]
  rfl

/-- The codes of `RECOVER` inside the range of R77, along the selection and then the number of recovered bytes (R125, R126). -/
theorem exec_recover_code_cases {s : State} (h : s.inBitlen.toNat ≤ 8 * s.params.ibufBytes) :
    ∃ t, exec .recover s = .next t ∧
      ((t.status.code = .preambleNotFound ∧ noPreamble (inputBits s)) ∨
        ∃ sh p, selectPreamble (inputBits s) = some (sh, p) ∧
          ((t.status.code = .syncHeaderTooShort ∧ (s.inBitlen.toNat - p - 16) / 8 < 6) ∨
            (t.status.code = .ok ∧ 6 ≤ (s.inBitlen.toNat - p - 16) / 8))) := by
  cases hsel : selectPreamble (inputBits s) with
  | none =>
    have hnone := (selectPreamble_eq_none_iff _).1 hsel
    exact ⟨_, exec_recover_of_noPreamble h hnone, .inl ⟨rfl, hnone⟩⟩
  | some found =>
    obtain ⟨sh, p⟩ := found
    have hbytes := length_recoveredBytes_inputBits s p
    rcases Nat.lt_or_ge (recoveredBytes (inputBits s) p).length 6 with hshort | hlong
    · exact ⟨_, exec_recover_of_short h hsel hshort, .inr ⟨sh, p, rfl, .inl ⟨rfl, hbytes ▸ hshort⟩⟩⟩
    · exact ⟨_, exec_recover_of_ok ((bitLenOk_iff s).2 h) (recoverPacket_of_long hsel hlong),
        .inr ⟨sh, p, rfl, .inr ⟨rfl, hbytes ▸ hlong⟩⟩⟩

/-! ## `PARSE` -/

/-- The codes of both `PARSE` forms (R125, R127). -/
theorem parseCompletes.code_cases {i : Instr} {dir : Direction} (hi : parseCompletes i dir) (s : State) :
    ∃ t, exec i s = .next t ∧
      ((t.status.code = .lenRange ∧ s.params.ibufBytes < s.inLen.toNat) ∨
        (t.status.code = .parseHeaderTooShort ∧ s.inLen.toNat < 6) ∨
        (t.status.code = .ok ∧ 6 ≤ s.inLen.toNat ∧ s.inLen.toNat ≤ s.params.ibufBytes)) := by
  obtain ⟨hlong, hshort, hparsed⟩ := hi s
  rcases Nat.lt_or_ge s.params.ibufBytes s.inLen.toNat with hout | hrange
  · exact ⟨_, hlong hout, .inl ⟨rfl, hout⟩⟩
  · rcases Nat.lt_or_ge s.inLen.toNat 6 with hlt | hmin
    · exact ⟨_, hshort hrange hlt, .inr (.inl ⟨rfl, hlt⟩)⟩
    · obtain ⟨_, t, -, hexec, -, -, -, hstatus, -⟩ := hparsed hrange hmin
      exact ⟨t, hexec, .inr (.inr ⟨congrArg Status.code hstatus, hmin, hrange⟩)⟩

/-! ## All commands -/

/-- Settles O20: each command's range check, and inside the range the checks of its function. `IBUF` holds at least 8 bytes,
so fewer than 16 bits are inside the range. -/
theorem outcomeCodesExactly : Obligations.OutcomeCodesExactly := by
  intro s hp
  refine ⟨⟨_, exec_clear s, rfl⟩, ?encode, ?recover, ?fewBits, ?parse⟩
  case encode =>
    rcases Nat.lt_or_ge s.params.ibufBytes s.inLen.toNat with hout | hrange
    · exact ⟨_, exec_encode_of_long hout, .inl ⟨rfl, hout⟩⟩
    · exact ⟨_, exec_encode_of_byteLenOk ((byteLenOk_iff s).2 hrange), .inr ⟨rfl, hrange⟩⟩
  case recover =>
    rcases Nat.lt_or_ge (8 * s.params.ibufBytes) s.inBitlen.toNat with hout | hrange
    · exact ⟨_, exec_recover_of_long hout, .inl ⟨rfl, hout⟩⟩
    · obtain ⟨t, hexec, hcode⟩ := exec_recover_code_cases hrange
      exact ⟨t, hexec, .inr ⟨hrange, hcode⟩⟩
  case fewBits =>
    obtain ⟨hibuf, -⟩ := (wf_params_iff s.params).1 hp
    rcases Nat.lt_or_ge s.inBitlen.toNat 16 with hfew | hmany
    · have hnone : noPreamble (inputBits s) := noPreamble_of_short (by rwa [length_inputBits])
      exact ⟨_, exec_recover_of_noPreamble (by omega) hnone, fun _ => rfl⟩
    · obtain ⟨t, hexec, -⟩ := exec_completes .recover s
      exact ⟨t, hexec, fun hfew => absurd hfew (Nat.not_lt.2 hmany)⟩
  case parse =>
    rintro i (rfl | rfl)
    · exact (parseCompletes_of_exec exec_parseCmd).code_cases s
    · exact (parseCompletes_of_exec exec_parseTlm).code_cases s

end Sys2Proof.Machine
end

section
/-! # The host's accesses to a busy block: dropped writes (R141, R143) and reads of free values (R142) -/

namespace Sys2Proof.Machine

/-! ## Dropped writes -/

/-- A register the host can write takes no data while a command is in flight (R141, R143). -/
theorem portWrite_reg_of_busy {r : Reg} (hr : r.access = .rw) (v : Word) {s : State} (h : s.status.busy = true) :
    portWrite (.reg r) (.word v) s = dropWrite s := by
  cases r with
  | cmd | inLen | inBitlen => exact if_pos h
  | _ => cases hr

/-- `IBUF` takes no data while a command is in flight (R141). -/
theorem portWrite_ibuf_of_busy (n : Nat) (b : Byte) {s : State} (h : s.status.busy = true) :
    portWrite (.ibuf n) (.byte b) s = dropWrite s :=
  if_pos h

/-- Every input location is the address of a target, and a busy block drops what is written there. -/
theorem exists_dropping_target {s : State} {a : HostAddr} {d : BusData} (hwf : s.params.wf = true)
    (hinput : inputLocation s.params a d) (hbusy : s.status.busy = true) :
    ∃ g, targetOf s.params (widthOf d) a = some g ∧ portWrite g d s = dropWrite s := by
  rcases hinput with ⟨v, rfl, hreg⟩ | ⟨b, n, rfl, ha, hn⟩
  · rcases hreg with rfl | rfl | rfl <;> exact ⟨_, targetOf_regAddr _ _, portWrite_reg_of_busy rfl v hbusy⟩
  · exact ⟨_, targetOf_ibuf_of_wf hwf ha hn, portWrite_ibuf_of_busy n b hbusy⟩

/-- A write to an input location of a busy block sets `COLLIDE` and is acknowledged (log 10). -/
theorem step_write_dropped {s : State} {a : HostAddr} {d : BusData} {rest : List HostOp}
    (h : s.hostReady (.write a d) rest) (hinput : inputLocation s.params a d) (hbusy : s.status.busy = true) :
    step s = .next ((dropWrite s).afterHost rest .ack) := by
  have hwf : s.params.wf = true := h.1
  obtain ⟨g, hg, hdrop⟩ := exists_dropping_target (s := takeTurn s) hwf hinput hbusy
  rw [step_write h hg, hdrop]
  rfl

/-- Settles O7: `CMD` is an input location, and a completion step keeps `COLLIDE` and `CMD`. -/
theorem busyCmdWriteIsDropped : Obligations.BusyCmdWriteIsDropped := by
  intro s w rest h hbusy
  obtain ⟨u, hcomplete, hu⟩ := completionStep_completes ((dropWrite s).afterHost rest .ack)
  obtain ⟨-, hcmd, -⟩ := hu.engineFrame
  have hstatus := hu.status_eq
  exact ⟨_, step_write_dropped h (.inl ⟨w, rfl, .inl rfl⟩) hbusy, rfl, u, hcomplete,
    congrArg Status.collide hstatus, congrArg Status.done hstatus, hcmd⟩

/-- Settles O8: `IN_LEN`, `IN_BITLEN` and the bytes of `IBUF` are input locations. -/
theorem busyInputWriteIsDropped : Obligations.BusyInputWriteIsDropped := by
  intro s a d rest hlocation h hbusy
  have hinput : inputLocation s.params a d := hlocation.imp_left fun ⟨v, hd, hreg⟩ => ⟨v, hd, .inr hreg⟩
  exact step_write_dropped h hinput hbusy

/-! ## Free reads -/

/-- A result register has no stated value while a command is in flight (R142). -/
theorem portRead_result_of_busy {r : Reg} {s : State} (hr : r.isResult = true) (h : s.status.busy = true) :
    portRead (.reg r) s = (.word (Config.busyWord s.draws), { s with draws := s.draws + 1 }) :=
  if_pos ⟨h, hr⟩

/-- A byte of `OBUF` has no stated value while a command is in flight (R142). -/
theorem portRead_obuf_of_busy (n : Nat) {s : State} (h : s.status.busy = true) :
    portRead (.obuf n) s = (.byte (Config.busyByte s.draws), { s with draws := s.draws + 1 }) :=
  if_pos h

/-- Settles O12: one clause for the result registers, one for `OBUF`. -/
theorem busyReadDrawsAFreeValue : Obligations.BusyReadDrawsAFreeValue := by
  refine ⟨fun s r rest h hr hbusy => ?_, fun s a n rest ha hn h hbusy => ?_⟩
  · rw [step_read h (targetOf_regAddr s.params r), portRead_result_of_busy (s := takeTurn s) hr hbusy]
    rfl
  · have hwf : s.params.wf = true := h.1
    rw [step_read h (targetOf_obuf_of_wf hwf ha hn), portRead_obuf_of_busy (s := takeTurn s) n hbusy]
    rfl

end Sys2Proof.Machine
end

section
/-! # `WAIT` (R70, R145, R148): the polls while a command is in flight, and the poll after its completion -/

namespace Sys2Proof.Machine

/-! ## Runs -/

/-- A run goes on from where its first `n` steps ended. -/
theorem run_add_of_next {n : Nat} {s t : State} (k : Nat) (h : Host.Core.run Sys2Proof.core n s = .next t) :
    Host.Core.run Sys2Proof.core (n + k) s = Host.Core.run Sys2Proof.core k t := by
  induction n generalizing s with
  | zero =>
    cases h
    rw [Nat.zero_add]
  | succ n ih =>
    cases hs : step s with
    | next u =>
      rw [run_succ_of_next n hs] at h
      rw [Nat.succ_add, run_succ_of_next (n + k) hs, ih h]
    | fault r | refused r =>
      have hstop : Sys2Proof.core.step s = _ := hs
      simp only [Host.Core.run, hstop, reduceCtorEq] at h

theorem currentTurn_of_cons {s : State} {m : Turn} {ts : List Turn} (h : s.turns = m :: ts) : currentTurn s = m := by
  rw [currentTurn, h]
  rfl

/-! ## Polls -/

/-- A poll that reads `BUSY = 1` reads again (R148). -/
theorem step_wait_of_busy {s : State} {rest : List HostOp} (h : s.hostReady .wait rest) (hbusy : s.status.busy = true) :
    step s = .next (s.afterHost (.wait :: rest) (.data (.word (statusWord s.status)))) := by
  rw [step_of_hostReady h, hostAccess, pollStatus, if_neg (by simp [hbusy])]
  rfl

/-- A poll that reads `DONE = 1` and `BUSY = 0` is the last one (R148). -/
theorem step_wait_of_done {s : State} {rest : List HostOp} (h : s.hostReady .wait rest) (hdone : s.status.done = true)
    (hidle : s.status.busy = false) : step s = .next (s.afterHost rest (.data (.word (statusWord s.status)))) := by
  rw [step_of_hostReady h, hostAccess, pollStatus, if_pos (by simp [hdone, hidle])]
  rfl

/-- The state after polls of a busy block: `ts` are the turns left, `ans` is the last answer, and the host still waits. -/
def State.afterPolls (s : State) (rest : List HostOp) (ts : List Turn) (ans : PortAnswer) : State :=
  { s with turns := ts, host := .wait :: rest, port := ans }

/-- Any number of polls of a busy block use up their turns, and change the port's answer alone. -/
theorem run_polls_of_busy (n : Nat) {s : State} {rest : List HostOp} {ts : List Turn} (hwf : s.params.wf = true)
    (hreset : s.inReset = false) (hbusy : s.status.busy = true) (hhost : s.host = .wait :: rest)
    (hturns : s.turns = List.replicate n .host ++ ts) :
    ∃ ans, Host.Core.run Sys2Proof.core n s = .next (s.afterPolls rest ts ans) := by
  induction n generalizing s with
  | zero =>
    have hts : s.turns = ts := hturns
    refine ⟨s.port, ?_⟩
    rw [State.afterPolls, ← hts, ← hhost]
    rfl
  | succ n ih =>
    have hpoll := step_wait_of_busy ⟨hwf, hreset, currentTurn_of_cons hturns, hhost⟩ hbusy
    obtain ⟨ans, hrun⟩ := ih (s := s.afterHost (.wait :: rest) (.data (.word (statusWord s.status)))) hwf hreset hbusy
      rfl (congrArg List.tail hturns)
    exact ⟨ans, (run_succ_of_next n hpoll).trans hrun⟩

/-! ## The completion -/

/-- The next turns of a busy block are the engine's and then the host's, and `ts` are the turns after them: they are listed,
or nothing is and the default gives them (log 5). -/
def State.completionThenHost (s : State) (ts : List Turn) : Prop :=
  s.turns = .engine :: .host :: ts ∨ (s.turns = [] ∧ ts = [])

theorem State.completionThenHost.currentTurn_eq {s : State} {ts : List Turn} (h : s.completionThenHost ts)
    (hreset : s.inReset = false) (hbusy : s.status.busy = true) : currentTurn s = .engine := by
  rcases h with hlisted | ⟨hnone, -⟩
  · exact currentTurn_of_cons hlisted
  · simp [currentTurn, hnone, defaultTurn, hreset, hbusy]

/-- Once the engine has had its turn, one turn of the host stands before `ts`. -/
theorem State.completionThenHost.hostTurnsThen {s t : State} {ts : List Turn} (h : s.completionThenHost ts)
    (ht : t.turns = s.turns.tail) : t.hostTurnsThen 1 ts := by
  rcases h with hlisted | ⟨hnone, rfl⟩
  · exact .inl (by rw [ht, hlisted]; rfl)
  · exact .inr ⟨by rw [ht, hnone]; rfl, rfl⟩

/-- The completion step of the command in flight, then the last poll. -/
theorem run_completion_then_poll {s : State} {rest : List HostOp} {ts : List Turn} (hwf : s.params.wf = true)
    (hreset : s.inReset = false) (hbusy : s.status.busy = true) (hhost : s.host = .wait :: rest)
    (hturns : s.completionThenHost ts) :
    ∃ t : State, Host.Core.run Sys2Proof.core 2 s = .next t ∧ t.host = rest ∧ t.turns = ts ∧ t.status.done = true ∧
      t.status.busy = false ∧ t.port = .data (.word (statusWord t.status)) := by
  obtain ⟨u, hcomplete, hu⟩ := completionStep_completes (takeTurn s)
  have hengine : step s = .next u :=
    (step_of_engineTurnReady ⟨hwf, hreset, hturns.currentTurn_eq hreset hbusy, hbusy⟩).trans hcomplete
  obtain ⟨hparams, -, -, -, -, hinReset, -, -, hops, htail, -⟩ := hu.engineFrame
  have hdone : u.status.done = true := congrArg Status.done hu.status_eq
  have hidle : u.status.busy = false := congrArg Status.busy hu.status_eq
  have hlast := hturns.hostTurnsThen htail
  have hready : u.hostReady .wait rest :=
    ⟨hparams ▸ hwf, hinReset.trans hreset, hlast.currentTurn_eq hidle, hops.trans hhost⟩
  have hpoll := step_wait_of_done hready hdone hidle
  exact ⟨_, (run_succ_of_next 1 hengine).trans (run_succ_of_next 0 hpoll), rfl, (hlast.of_tail rfl).turns_eq, hdone, hidle,
    rfl⟩

/-- Settles O14: the polls change nothing, and the run goes on from them with the completion step and the last poll. -/
theorem waitSeesTheCompletion : Obligations.WaitSeesTheCompletion := by
  intro s n rest ts hwf hreset hbusy hhost hturns
  obtain ⟨us, hlisted, hus⟩ : ∃ us : List Turn, s.turns = List.replicate n .host ++ us ∧
      (us = .engine :: .host :: ts ∨ (us = [] ∧ ts = [])) := by
    rcases hturns with hlisted | ⟨hpolls, hts⟩
    · exact ⟨_, hlisted, .inl rfl⟩
    · exact ⟨[], by rw [hpolls, List.append_nil], .inr ⟨rfl, hts⟩⟩
  obtain ⟨ans, hpolls⟩ := run_polls_of_busy n hwf hreset hbusy hhost hlisted
  refine ⟨⟨_, hpolls, hbusy, rfl⟩, ?_⟩
  rw [run_add_of_next 2 hpolls]
  exact run_completion_then_poll (s := s.afterPolls rest us ans) hwf hreset hbusy rfl hus

end Sys2Proof.Machine
end

section
/-! # Reset (R136 to R139): the machine after reset, and the command in flight that a reset abandons -/

namespace Sys2Proof.Machine

/-! ## The reset state -/

theorem statusWord_reset : statusWord Status.reset = 0 := by decide

/-- Settles O46: the parameter registers read the configuration, and every other register reads 0;
both buffers have nothing written. -/
theorem resetValues : Obligations.ResetValues := by
  refine fun p => ⟨fun r => ?_, rfl, rfl, fun _ => rfl, fun _ => rfl, Config.vectorParams, rfl⟩
  cases r with
  | cmd | inLen | inBitlen => rfl
  | status => exact statusWord_reset
  | ibufSize | obufSize | cmdTextOfs | markerLen => rfl
  | outLen | syncInfo | syncPos | recovLen | expLen | actLen | streamId | seqCtl | lenField | apid | seqCount | cmdCode
  | seqId | pflags | textLen => exact readReg_of_results_zero rfl rfl

theorem inv_resetFor {p : Params} (hp : p.wf = true) : (State.resetFor p).inv = true :=
  inv_of_results_zero hp rfl rfl rfl

/-- Settles O54: `State.reset` is the reset state of a configuration inside R6. -/
theorem resetHasTheInvariant : Obligations.ResetHasTheInvariant :=
  ⟨fun _ => inv_resetFor, inv_resetFor (p := Config.vectorParams) (by decide)⟩

/-! ## While reset is asserted -/

/-- While reset is asserted neither the host nor the engine does anything with its turn (R136, R138). -/
theorem step_of_inReset {s : State} (hwf : s.params.wf = true) (hreset : s.inReset = true)
    (hturn : currentTurn s = .host ∨ currentTurn s = .engine) : step s = .next (takeTurn s) := by
  rcases hturn with hhost | hengine
  · rw [step_of_host hwf hhost, hostTurn, takeTurn_inReset, if_pos hreset]
  · rw [step_of_engine hwf hengine, engineTurn, takeTurn_inReset, if_neg (by simp [hreset])]

/-- Any number of turns of host and engine while reset is asserted are used up, and change nothing. -/
theorem run_of_inReset (mid : List Turn) {s : State} {ts : List Turn} (hwf : s.params.wf = true)
    (hreset : s.inReset = true) (hmid : ∀ m ∈ mid, m = .host ∨ m = .engine) (hturns : s.turns = mid ++ ts) :
    Host.Core.run Sys2Proof.core mid.length s = .next { s with turns := ts } := by
  induction mid generalizing s with
  | nil =>
    have hts : s.turns = ts := hturns
    rw [← hts]
    rfl
  | cons m mid ih =>
    obtain ⟨hm, hrest⟩ := List.forall_mem_cons.1 hmid
    have hidle : step s = .next (takeTurn s) :=
      step_of_inReset hwf hreset (by rwa [currentTurn_of_cons hturns])
    exact (run_succ_of_next mid.length hidle).trans
      (ih (s := takeTurn s) hwf hreset hrest (congrArg List.tail hturns))

/-- The release ends the reset with the registers of R137 and new draws for the buffers (R138, R139). -/
theorem step_release_of_inReset {s : State} {ts : List Turn} (hwf : s.params.wf = true) (hreset : s.inReset = true)
    (hturns : s.turns = .releaseReset :: ts) :
    step s = .next { State.resetFor s.params with
      epoch := s.epoch + 1, draws := s.draws, host := s.host, turns := ts, port := s.port } := by
  have htail : (takeTurn s).turns = ts := congrArg List.tail hturns
  rw [step_of_releaseReset hwf (currentTurn_of_cons hturns), releaseReset_of_asserted (takeTurn s) hreset, htail]
  rfl

/-- Settles O47: the assertion, the turns that do nothing, and the release. -/
theorem resetAbandonsTheCommand : Obligations.ResetAbandonsTheCommand := by
  intro s mid ts hwf hmid hturns
  have hassert := step_of_assertReset hwf (currentTurn_of_cons hturns)
  have hquiet := run_of_inReset mid (s := assertReset (takeTurn s)) hwf rfl hmid (congrArg List.tail hturns)
  have hrelease := step_release_of_inReset (s := { assertReset (takeTurn s) with turns := .releaseReset :: ts }) hwf rfl rfl
  calc Host.Core.run Sys2Proof.core (mid.length + 2) s
      = Host.Core.run Sys2Proof.core (mid.length + 1) (assertReset (takeTurn s)) := run_succ_of_next _ hassert
    _ = Host.Core.run Sys2Proof.core 1 { assertReset (takeTurn s) with turns := .releaseReset :: ts } :=
        run_add_of_next 1 hquiet
    _ = _ := run_succ_of_next 0 hrelease

end Sys2Proof.Machine
end
